-- ==== Sys2Proof/Word.lean ====
section
/-! DEFINITION. The word types of the engine (spec/00_scope.md R7, R9; spec/30_encoding.md R90). -/

namespace Sys2Proof

/-- A panel opcode, a parameter byte, a pixel byte: 8 bits (R7). -/
abbrev Byte := BitVec 8

/-- A coordinate, an operand field of a request: 16 bits, unsigned (R7, R91). -/
abbrev Half := BitVec 16

/-- The request word `REQ` (R90). -/
abbrev ReqWord := BitVec 72

/-- The level of a 1-bit line or flag register: `true` is 1, `false` is 0 (R24). -/
abbrev Level := Bool

end Sys2Proof
end

