-- ==== Sys2Proof/Config.lean ====
section
/-! DEFINITION. The controller descriptor `DESC` (spec/00_scope.md R5, R6), the example descriptor of
spec/95_test_vectors.md section 3.1, and the free values of the transient registers (spec/10_state.md R33). -/

namespace Sys2Proof

/-- The count field of an init-table row (spec/30_encoding.md R100, R101): the distinguished value END, or a
count with the delay flag that shares its field. -/
inductive Ctl where
  /-- END: the row is the sentinel (R101). -/
  | stop
  /-- `parameterCount` and `delayAfter` (R100, R103). -/
  | count (n : Nat) (delayAfter : Bool)
  deriving DecidableEq, Repr

/-- One InitCommand row (R100): the panel opcode, the parameter storage, the count field.
The storage is 16 bytes (`PARAM_CAP`, spec/00_scope.md R7); WellFormed.lean checks its length. -/
structure InitRow where
  opcode : Byte
  params : List Byte
  ctl : Ctl
  deriving DecidableEq, Repr

/-- The orientation table, space OTAB: one byte for each of the four codes (R6; spec/10_state.md R21;
spec/20_memory.md R62). -/
structure OrientTable where
  portrait : Byte
  portraitInverted : Byte
  landscape : Byte
  landscapeInverted : Byte
  deriving DecidableEq, Repr

/-- The controller descriptor `DESC`, immutable for the life of the instance (R5, R6).
`ORIENT_DEFAULT`, `OFFX` and `OFFY` have the widths that R8 (b) and (e) demand by their types. -/
structure Desc where
  /-- `DESC.VARIANT`, a label no rule reads (R6). -/
  variant : String
  /-- `DESC.INIT_TABLE`, space TABLE. -/
  initTable : List InitRow
  offx : Half
  offy : Half
  /-- `DESC.ORIENT_TABLE`, space OTAB. -/
  orientTable : OrientTable
  opCaset : Byte
  opRaset : Byte
  opRamwr : Byte
  opSlpin : Byte
  opSlpout : Byte
  opMadctl : Byte
  /-- `DESC.ORIENT_HOOK`: none, or the opcode of the row whose byte the mapper supplies. -/
  orientHook : Option Byte
  hasReset : Bool
  orientDefault : BitVec 2
  /-- `DESC.COLOR_INVERT`, read by no rule (R6, decision D20). -/
  colorInvert : Bool
  /-- `DESC.SETTLE_MS`, which R6 and R153 fix at 100; WellFormed.lean checks it. -/
  settleMs : Nat
  resetLowMs : Nat
  resetHighMs : Nat
  /-- `DESC.COL_MAX(0)`, `DESC.ROW_MAX(0)`: the limits of the portrait codes. -/
  colMax0 : Half
  rowMax0 : Half
  /-- `DESC.COL_MAX(1)`, `DESC.ROW_MAX(1)`: the limits of the landscape codes. -/
  colMax1 : Half
  rowMax1 : Half
  deriving DecidableEq, Repr

namespace Config

/-- `PARAM_CAP`: the parameter storage of one InitCommand, in bytes (R7). -/
def paramCap : Nat := 16

/-- `COUNT_MAX`: the largest legal parameter count (R7). -/
def countMax : Nat := 15

/-- `BITS_MAX`: the largest bit count of one raw transfer (R7). -/
def bitsMax : Nat := 16

/-- `SETTLE_MS`: the settle delay after a flagged init row, in milliseconds (R6; spec/41_command_sequencer.md R153;
spec/70_reset_and_hazards.md R270 (a)). -/
def settleMs : Nat := 100

/-- `RESET_LOW_MS` and `RESET_HIGH_MS` are at least this many milliseconds (R6, R8 (d); R270 (b), (c)). -/
def resetHoldMin : Nat := 100

/-- A row with the given leading parameter bytes; the rest of the 16-byte storage is zero
(spec/95_test_vectors.md section 2.7). -/
def row (opcode : Byte) (ps : List Byte) (ctl : Ctl) : InitRow :=
  { opcode := opcode, params := ps ++ List.replicate (paramCap - ps.length) 0, ctl := ctl }

/-- The init table of the spec's example descriptor (spec/95_test_vectors.md section 3.1). -/
def exampleTable : List InitRow :=
  [ row 0xFE [] (.count 0 false), row 0xB6 [0x00, 0x20] (.count 2 false), row 0x36 [0x00] (.count 1 false),
    row 0x3A [0x05] (.count 1 false), row 0x11 [] (.count 0 true), row 0x29 [] (.count 0 true),
    row 0x00 [] .stop ]

/-- The example descriptor `DEX` of spec/95_test_vectors.md section 3.1.
DESIGN CHOICE (log entry 1): `State.reset` takes it as its descriptor, and `variant := "DEX"` and
`colorInvert := false`, which the spec leaves open (R6) and section 3.1 does not give, are the model's. -/
def exampleDesc : Desc where
  variant := "DEX"
  initTable := exampleTable
  offx := 2
  offy := 1
  orientTable := ⟨0xE0, 0xE1, 0xE2, 0xE3⟩
  opCaset := 0x2A
  opRaset := 0x2B
  opRamwr := 0x2C
  opSlpin := 0x10
  opSlpout := 0x11
  opMadctl := 0x36
  orientHook := some 0x36
  hasReset := true
  orientDefault := 0
  colorInvert := false
  settleMs := 100
  resetLowMs := 100
  resetHighMs := 100
  colMax0 := 0xFFFF
  rowMax0 := 0xFFFF
  colMax1 := 0xFFFF
  rowMax1 := 0xFFFF

/-! The values the transient registers hold after a request that used them are unspecified (R33;
spec/93_implementation_defined.md U15): free values, numbered by `State.freeCtr` (log entry 8). -/

opaque freeIdx : Nat → Nat
opaque freePidx : Nat → BitVec 4
opaque freeShift : Nat → BitVec 16
opaque freeBitcnt : Nat → BitVec 5
opaque freePixcnt : Nat → BitVec 34
opaque freeWinX1 : Nat → Half
opaque freeWinY1 : Nat → Half
opaque freeWinX2 : Nat → Half
opaque freeWinY2 : Nat → Half
opaque freeCol0 : Nat → Half
opaque freeCol1 : Nat → Half
opaque freeRow0 : Nat → Half
opaque freeRow1 : Nat → Half

end Config

end Sys2Proof
end

