-- ==== Sys2Proof/Syntax.lean ====
section
/-! DEFINITION. The nine requests (spec/30_encoding.md R92) and a request as the host presents it (R90, R97). -/

namespace Sys2Proof

/-- The requests, one constructor per row of spec/opcode_table.json. Each carries the operands its operation
uses; the unused operand fields have no effect (R94). A window is `x1 y1 x2 y2`, both corners inclusive (R91). -/
inductive Instr where
  /-- 0x01: the value and the bit count (spec/40_bus_transport.md R140). -/
  | sendbits (value bitCount : Half)
  /-- 0x02: the value, `a[7:0]` (R141). -/
  | sendbyte (value : Byte)
  /-- 0x03 (spec/41_command_sequencer.md R150). -/
  | init
  /-- 0x04: the orientation code, the whole field `a` (R98; spec/42_addressing_orientation.md R170). -/
  | orient (code : Half)
  /-- 0x05 (R174). -/
  | window (x1 y1 x2 y2 : Half)
  /-- 0x06; the pixel bytes are the payload of the request (spec/43_blit_power.md R190). -/
  | flush (x1 y1 x2 y2 : Half)
  /-- 0x07 (R197). -/
  | slpin
  /-- 0x08 (R198). -/
  | slpout
  /-- 0x09 (spec/44_power_on_reset.md R210). -/
  | hwreset
  deriving DecidableEq, Repr

/-- What the host presents on the request port: the 72-bit word (R90) and the pixel bytes attached to it,
which only FLUSH reads (R97). -/
structure Request where
  word : ReqWord
  pix : List Byte
  deriving DecidableEq, Repr

end Sys2Proof
end

