-- ==== Sys2Proof/WellFormed.lean ====
section
/-! DEFINITION. When a descriptor is well-formed (spec/00_scope.md R8) and when the payload of a request is
(spec/30_encoding.md R97). An `Instr` has no check of its own: every value its operand types admit is one the
encoding admits (R90, R91, R98). -/

namespace Sys2Proof

/-- The rows before the first sentinel, in order; none if there is no sentinel (spec/30_encoding.md R101). -/
def InitRow.beforeEnd : List InitRow → Option (List InitRow)
  | [] => none
  | r :: rs =>
    match r.ctl with
    | .stop => some []
    | .count _ _ => (InitRow.beforeEnd rs).map (r :: ·)

/-- `parameterCount` of a row; 0 for the sentinel, whose parameters are never read (R101). -/
def InitRow.parameterCount (r : InitRow) : Nat :=
  match r.ctl with
  | .stop => 0
  | .count n _ => n

/-- `delayAfter` of a row; the sentinel asks for no delay (R101). -/
def InitRow.delayAfter (r : InitRow) : Bool :=
  match r.ctl with
  | .stop => false
  | .count _ d => d

/-- R8 (a), one row: the count is in 0..15 and the storage has its 16 bytes (R7). -/
def InitRow.wf (r : InitRow) : Bool :=
  decide (r.parameterCount ≤ Config.countMax) && decide (r.params.length = Config.paramCap)

/-- R8 (c): at most one row before the sentinel has the hook's opcode, and that row has count 1. -/
def Desc.hookWf (d : Desc) (rows : List InitRow) : Bool :=
  match d.orientHook with
  | none => true
  | some h =>
    let hits := rows.filter (fun r => r.opcode == h)
    decide (hits.length ≤ 1) && hits.all (fun r => r.parameterCount == 1)

/-- A well-formed descriptor: R8 (a), (c), (d), and the settle delay at its 100 ms (R6; spec/41_command_sequencer.md
R153; log entry 23). R8 (b) and (e) hold by the types of the fields. -/
def Desc.wf (d : Desc) : Bool :=
  (match InitRow.beforeEnd d.initTable with
    | none => false
    | some rows => rows.all InitRow.wf && d.hookWf rows) &&
  decide (Config.resetHoldMin ≤ d.resetLowMs) && decide (Config.resetHoldMin ≤ d.resetHighMs) &&
  decide (d.settleMs = Config.settleMs)

end Sys2Proof
end

