-- ==== Sys2Proof/Decode.lean ====
section
/-! DEFINITION. The decoder of the request word (spec/30_encoding.md R90 to R95) and of packed init-table rows
(R102, R103), and after each its encoder. -/

namespace Sys2Proof

/-! ## The request word -/

/-- `op = REQ[71:64]` (R90). -/
def reqOp (w : ReqWord) : Byte := w.extractLsb' 64 8

/-- `a = REQ[63:48]` (R90). -/
def reqA (w : ReqWord) : Half := w.extractLsb' 48 16

/-- `b = REQ[47:32]` (R90). -/
def reqB (w : ReqWord) : Half := w.extractLsb' 32 16

/-- `c = REQ[31:16]` (R90). -/
def reqC (w : ReqWord) : Half := w.extractLsb' 16 16

/-- `d = REQ[15:0]` (R90). -/
def reqD (w : ReqWord) : Half := w.extractLsb' 0 16

/-- Why a word names no request. -/
inductive DecodeError where
  /-- The `op` field is 0x00 or 0x0A to 0xFF (R95). -/
  | reservedOp (op : Byte)
  deriving DecidableEq, Repr

/-- The request a word stands for, selected on `op` alone (R92); operand fields the operation does not use are
ignored (R94). -/
def decode (w : ReqWord) : Except DecodeError Instr :=
  match (reqOp w).toNat with
  | 1 => .ok (.sendbits (reqA w) (reqB w))
  | 2 => .ok (.sendbyte ((reqA w).setWidth 8))
  | 3 => .ok .init
  | 4 => .ok (.orient (reqA w))
  | 5 => .ok (.window (reqA w) (reqB w) (reqC w) (reqD w))
  | 6 => .ok (.flush (reqA w) (reqB w) (reqC w) (reqD w))
  | 7 => .ok .slpin
  | 8 => .ok .slpout
  | 9 => .ok .hwreset
  | _ => .error (.reservedOp (reqOp w))

/-- The request an instruction-table word of `nbits` bits stands for: the table numbers the one 72-bit word
from its bit 0, so the word is `w` itself, with the bits above `nbits` zero (log entry 20). -/
def decodeTableWord (nbits w : Nat) : Option Instr :=
  let v := w % 2 ^ nbits
  if v < 2 ^ 72 then
    match decode (BitVec.ofNat 72 v) with
    | .ok i => some i
    | .error _ => none
  else none

/-- The word with the given fields (R90). -/
def reqWord (op : Byte) (a b c d : Half) : ReqWord := op ++ a ++ b ++ c ++ d

/-- The request opcode of an operation (R92). -/
def opcodeOf : Instr → Byte
  | .sendbits _ _ => 0x01
  | .sendbyte _ => 0x02
  | .init => 0x03
  | .orient _ => 0x04
  | .window _ _ _ _ => 0x05
  | .flush _ _ _ _ => 0x06
  | .slpin => 0x07
  | .slpout => 0x08
  | .hwreset => 0x09

/-- The word of a request, zeros in the fields it does not use (R94, R107). -/
def encode (i : Instr) : ReqWord :=
  match i with
  | .sendbits v n => reqWord (opcodeOf i) v n 0 0
  | .sendbyte v => reqWord (opcodeOf i) (v.setWidth 16) 0 0 0
  | .init => reqWord (opcodeOf i) 0 0 0 0
  | .orient k => reqWord (opcodeOf i) k 0 0 0
  | .window x1 y1 x2 y2 => reqWord (opcodeOf i) x1 y1 x2 y2
  | .flush x1 y1 x2 y2 => reqWord (opcodeOf i) x1 y1 x2 y2
  | .slpin => reqWord (opcodeOf i) 0 0 0 0
  | .slpout => reqWord (opcodeOf i) 0 0 0 0
  | .hwreset => reqWord (opcodeOf i) 0 0 0 0

/-! ## Packed init-table rows -/

/-- Why bytes are no init table. -/
inductive RowError where
  /-- A row has fewer than 18 bytes left (R102), or the table ends before a sentinel (R8). -/
  | truncated
  /-- `ctl` is not 0xFF and `ctl[6:0]` is above 15 (R103). -/
  | badCount (ctl : Byte)
  deriving DecidableEq, Repr

/-- The `ctl` byte: 0xFF is END, else bit 7 is `delayAfter` and bits 6..0 the count, at most 15 (R102, R103). -/
def decodeCtl (ctl : Byte) : Except RowError Ctl :=
  if ctl = 0xFF then .ok .stop
  else
    let n := (ctl.extractLsb' 0 7).toNat
    if n ≤ Config.countMax then .ok (.count n (ctl.getLsbD 7)) else .error (.badCount ctl)

/-- One packed row: byte 0 the opcode, bytes 1 to 16 the parameter storage, byte 17 `ctl`; and the bytes after
it (R102). -/
def decodeRow : List Byte → Except RowError (InitRow × List Byte)
  | [] => .error .truncated
  | opcode :: rest =>
    match rest.drop Config.paramCap with
    | [] => .error .truncated
    | ctl :: more =>
      match decodeCtl ctl with
      | .error e => .error e
      | .ok c => .ok ({ opcode := opcode, params := rest.take Config.paramCap, ctl := c }, more)

/-- The rows up to and including the first sentinel (R101); `fuel` is at least the number of rows. Bytes after
the sentinel do not exist for the engine. -/
def decodeTableFuel : Nat → List Byte → Except RowError (List InitRow)
  | 0, _ => .error .truncated
  | fuel + 1, bytes =>
    match decodeRow bytes with
    | .error e => .error e
    | .ok (r, more) =>
      if r.ctl = .stop then .ok [r]
      else
        match decodeTableFuel fuel more with
        | .error e => .error e
        | .ok rs => .ok (r :: rs)

/-- A packed init table (R102). -/
def decodeTable (bytes : List Byte) : Except RowError (List InitRow) :=
  decodeTableFuel (bytes.length + 1) bytes

/-- The `ctl` byte of a count field (R102). -/
def encodeCtl : Ctl → Byte
  | .stop => 0xFF
  | .count n delay => (if delay then 0x80 else 0x00) ||| BitVec.ofNat 8 n

/-- The 18 bytes of a row (R102). -/
def encodeRow (r : InitRow) : List Byte := r.opcode :: (r.params ++ [encodeCtl r.ctl])

/-- The bytes of a table, row after row (R102). -/
def encodeTable (rows : List InitRow) : List Byte := rows.flatMap encodeRow

end Sys2Proof
end

