-- ==== Sys2Proof/Machine/State.lean ====
section
/-! DEFINITION. The state of one engine instance (spec/10_state.md R20 to R38) and its value after engine reset
(R36, spec/70_reset_and_hazards.md R250); the reasons a step can stop. -/

namespace Sys2Proof.Machine

/-- A machine fault. -/
inductive Fault where
  /-- Raised by `step` in a state with `BUSY = 1`: such a state lies inside a request, the port accepts nothing
  there (spec/10_state.md R31), and a request is one step of the model (R16), so no step starts there. Safe. -/
  | portBusy
  deriving DecidableEq, Repr

/-- An input to which the spec gives no meaning. -/
inductive Refusal where
  /-- Raised by `exec`'s arm of an instruction that has no meaning yet. Safe. -/
  | notModelled (mnemonic : String)
  /-- Raised by `step` and by INIT when the descriptor is not well-formed: "the model refuses an ill-formed
  descriptor" (spec/00_scope.md R8; spec/93_implementation_defined.md U4, U13). Safe. -/
  | illFormedDescriptor
  /-- Raised by FLUSH when the pixel buffer is shorter than `N` bytes: it "has no meaning (the model refuses it"
  (spec/30_encoding.md R97; U6). Safe. -/
  | pixelBufferTooShort
  deriving DecidableEq, Repr

/-- The five output lines (spec/10_state.md R24). -/
inductive Line where
  | cs | clk | mosi | dc | rst
  deriving DecidableEq, Repr

/-- The levels of the lines. `rst` is none when the descriptor has no reset line: the register does not exist
(spec/10_state.md R20; spec/44_power_on_reset.md R211). -/
structure Lines where
  cs : Level
  clk : Level
  mosi : Level
  dc : Level
  rst : Option Level
  deriving DecidableEq, Repr

/-- What `TRACE` records (spec/00_scope.md R12): a line took a new level, or at least `ms` milliseconds pass. -/
inductive Event where
  | line (l : Line) (v : Level)
  | delay (ms : Nat)
  deriving DecidableEq, Repr

/-- The lifecycle phases (spec/10_state.md R27). -/
inductive Phase where
  | uninitialized | awake | asleep
  deriving DecidableEq, Repr

/-- The reasons of `violate` (spec/60_exceptions.md R230), in the order of its table. -/
inductive Violation where
  | initRepeated | initWithoutReset | orientNotAwake | windowNotAwake | flushNotAwake
  | windowRange | slpinNotAwake | slpoutNotAsleep | hwresetAfterInit
  deriving DecidableEq, Repr

/-- The causes of InvalidArgument (spec/60_exceptions.md R221). -/
inductive Cause where
  | orientRange | windowOrder | badBitcount | badOp
  deriving DecidableEq, Repr

/-- `RSP`: `status` 2 bits, `cause` 4 bits (spec/10_state.md R32; spec/30_encoding.md R96). -/
structure Rsp where
  status : BitVec 2
  cause : BitVec 4
  deriving DecidableEq, Repr

/-- `WIN`, the window of the request being executed (spec/10_state.md R33). -/
structure Win where
  x1 : Half
  y1 : Half
  x2 : Half
  y2 : Half
  deriving DecidableEq, Repr

/-- A space of bytes: the listed addresses strictly rising, no value at an unlisted one (log entry 6). -/
abbrev Memory := List Host.Cell

/-- The canonical form of a memory: the addresses rise strictly, so equal memories are equal lists. -/
def Memory.wf : Memory → Bool
  | [] => true
  | [_] => true
  | (a, _) :: (b, y) :: m => decide (a < b) && Memory.wf ((b, y) :: m)

/-- The state of one engine instance. -/
structure State where
  /-- `DESC` (spec/00_scope.md R6): a parameter of the instance, held here so that a step is a function of the
  state; no request writes it (log entry 1). -/
  desc : Desc
  /-- The requests the host presents and the engine has not accepted yet, oldest first (log entry 3). -/
  pending : List Request
  /-- PIXBUF: the buffer attached to the request last accepted (spec/20_memory.md R63). -/
  pixbuf : Memory
  orient : BitVec 2
  offx : Half
  offy : Half
  lines : Lines
  busy : Bool
  rsp : Rsp
  phase : Phase
  viol : Bool
  /-- `VIOL_REASONS`, a set: its members in the order of R230's table (log entry 12). -/
  violReasons : List Violation
  rstdone : Bool
  /-- `TRACE`, oldest event first. -/
  trace : List Event
  idx : Nat
  pidx : BitVec 4
  shift : BitVec 16
  bitcnt : BitVec 5
  pixcnt : BitVec 34
  win : Win
  col0 : Half
  col1 : Half
  row0 : Half
  row1 : Half
  /-- The model's own counter: the number of the next free value (log entry 8). -/
  freeCtr : Nat
  deriving DecidableEq, Repr

/-- The line levels after engine reset (spec/10_state.md R26); `RST` exists only with a reset line (R20). -/
def Lines.reset (hasReset : Bool) : Lines :=
  { cs := true, clk := true, mosi := false, dc := true, rst := if hasReset then some true else none }

/-- Engine reset of an instance configured with `d` (R36, R250). The transient registers are unspecified there;
DESIGN CHOICE 0 (log entry 7). -/
def State.resetWith (d : Desc) : State where
  desc := d
  pending := []
  pixbuf := []
  orient := d.orientDefault
  offx := d.offx
  offy := d.offy
  lines := Lines.reset d.hasReset
  busy := false
  rsp := ⟨0, 0⟩
  phase := .uninitialized
  viol := false
  violReasons := []
  rstdone := false
  trace := []
  idx := 0
  pidx := 0
  shift := 0
  bitcnt := 0
  pixcnt := 0
  win := ⟨0, 0, 0, 0⟩
  col0 := 0
  col1 := 0
  row0 := 0
  row1 := 0
  freeCtr := 0

/-- The machine right after reset, configured with the spec's example descriptor (log entry 1). -/
def State.reset : State := State.resetWith Config.exampleDesc

end Sys2Proof.Machine
end

