-- ==== Sys2Proof/Machine/Operands.lean ====
section
/-! DEFINITION. The operand forms: argument checks, byte slices, the coordinate transform, the pixel byte count,
and the reads of the spaces OTAB, TABLE and PIXBUF. -/

namespace Sys2Proof.Machine

/-! ## Slices -/

/-- `hi8(v) = v[15:8]` (spec/00_scope.md R9). -/
def hi8 (v : Half) : Byte := v.extractLsb' 8 8

/-- `lo8(v) = v[7:0]` (R9). -/
def lo8 (v : Half) : Byte := v.extractLsb' 0 8

/-- `zext_16(b)` (R9). -/
def zext16 (b : Byte) : Half := b.setWidth 16

/-! ## Argument checks (spec/60_exceptions.md R221, R225) -/

/-- SENDBITS: `1 <= b <= 16` (spec/40_bus_transport.md R142). -/
def bitCountLegal (b : Half) : Bool := decide (1 ≤ b.toNat) && decide (b.toNat ≤ Config.bitsMax)

/-- ORIENT: the whole 16-bit field is at most 3 (spec/42_addressing_orientation.md R171). -/
def orientLegal (a : Half) : Bool := decide (a.toNat ≤ 3)

/-- WINDOW, FLUSH: `x1 <= x2` and `y1 <= y2`, unsigned (R178). -/
def windowOrdered (x1 y1 x2 y2 : Half) : Bool :=
  decide (x1.toNat ≤ x2.toNat) && decide (y1.toNat ≤ y2.toNat)

/-! ## The coordinate transform (R175, R177, R179) -/

/-- `ORIENT[1]`, the axis mode `m`: false for codes 0 and 1, true for codes 2 and 3 (spec/10_state.md R21). -/
def axisMode (orient : BitVec 2) : Bool := orient.getLsbD 1

/-- A window transformed to panel columns and rows: the exact sums (R177). -/
structure PanelWindow where
  c0 : Nat
  c1 : Nat
  r0 : Nat
  r1 : Nat
  deriving DecidableEq, Repr

/-- Column is X plus one offset and row is Y plus the other; in the landscape codes the two offsets change
places, the ranges do not (R175; spec/90_conflicts.md C3). -/
def transform (orient : BitVec 2) (offx offy : Half) (w : Win) : PanelWindow :=
  let ox := if axisMode orient then offy else offx
  let oy := if axisMode orient then offx else offy
  { c0 := w.x1.toNat + ox.toNat, c1 := w.x2.toNat + ox.toNat
    r0 := w.y1.toNat + oy.toNat, r1 := w.y2.toNat + oy.toNat }

/-- `DESC.COL_MAX(m)` (spec/00_scope.md R6). -/
def colMax (d : Desc) (m : Bool) : Half := if m then d.colMax1 else d.colMax0

/-- `DESC.ROW_MAX(m)` (R6). -/
def rowMax (d : Desc) (m : Bool) : Half := if m then d.rowMax1 else d.rowMax0

/-- The transformed end lies beyond the panel's addressable range (R177). -/
def outOfRange (d : Desc) (m : Bool) (p : PanelWindow) : Bool :=
  decide ((colMax d m).toNat < p.c1) || decide ((rowMax d m).toNat < p.r1)

/-- `N = 2 * (x2 - x1 + 1) * (y2 - y1 + 1)`, exact (spec/43_blit_power.md R194). -/
def pixelBytes (x1 y1 x2 y2 : Half) : Nat :=
  2 * (x2.toNat - x1.toNat + 1) * (y2.toNat - y1.toNat + 1)

/-! ## Reads of the spaces (spec/00_scope.md R11) -/

/-- `OrientRead(k) = DESC.ORIENT_TABLE[k]` (R11; spec/20_memory.md R62). -/
def orientRead (d : Desc) (k : BitVec 2) : Byte :=
  match k.toNat with
  | 0 => d.orientTable.portrait
  | 1 => d.orientTable.portraitInverted
  | 2 => d.orientTable.landscape
  | _ => d.orientTable.landscapeInverted

/-- `TabRow(i)`: row `i` of `DESC.INIT_TABLE`, none beyond its stored rows (R11; R61). -/
def tabRow (d : Desc) (i : Nat) : Option InitRow := d.initTable[i]?

/-- One byte of a memory; none where no byte is listed. -/
def Memory.read : Memory → Nat → Option Byte
  | [], _ => none
  | (a, b) :: m, k => if a = k then some b else Memory.read m k

/-- The memory that holds a list of bytes from an address on. -/
def Memory.ofBytes : Nat → List Byte → Memory
  | _, [] => []
  | a, b :: bs => (a, b) :: Memory.ofBytes (a + 1) bs

/-- `PixRead(k)`: byte `k` of the attached pixel buffer (R11; spec/20_memory.md R63). -/
def pixRead (s : State) (k : Nat) : Option Byte := Memory.read s.pixbuf k

end Sys2Proof.Machine
end

