-- ==== Sys2Proof/Machine/Flags.lean ====
section
/-! DEFINITION. The flag-like state: response codes, the ghost flags and the phases (spec/10_state.md R27 to R29,
R32, R34; spec/60_exceptions.md R221, R230, R231). -/

namespace Sys2Proof.Machine

/-! ## Response codes -/

/-- `status` OK (spec/30_encoding.md R96). -/
def statusOk : BitVec 2 := 0

/-- `status` INVALID_ARGUMENT (R96). -/
def statusInvalid : BitVec 2 := 1

/-- The cause code (R221). -/
def Cause.code : Cause → BitVec 4
  | .orientRange => 1
  | .windowOrder => 2
  | .badBitcount => 3
  | .badOp => 4

/-! ## Violations -/

/-- The place of a reason in R230's table. -/
def Violation.place : Violation → Nat
  | .initRepeated => 0
  | .initWithoutReset => 1
  | .orientNotAwake => 2
  | .windowNotAwake => 3
  | .flushNotAwake => 4
  | .windowRange => 5
  | .slpinNotAwake => 6
  | .slpoutNotAsleep => 7
  | .hwresetAfterInit => 8

/-- Adds a reason to the set, kept in the order of R230's table without repeats (log entry 12). -/
def insertReason (r : Violation) : List Violation → List Violation
  | [] => [r]
  | x :: xs =>
    if r.place < x.place then r :: x :: xs
    else if r.place = x.place then x :: xs
    else x :: insertReason r xs

/-- `if c: violate(reason)`: then `VIOL <- 1` and the reason is recorded, and the request goes on
(spec/00_scope.md R15). -/
def State.violateIf (c : Bool) (r : Violation) (s : State) : State :=
  { s with viol := s.viol || c, violReasons := if c then insertReason r s.violReasons else s.violReasons }

/-! ## Phases (R231) -/

/-- The phase after SLPIN (spec/43_blit_power.md R197). -/
def Phase.afterSlpin (p : Phase) : Phase := if p = .awake then .asleep else p

/-- The phase after SLPOUT (R198). -/
def Phase.afterSlpout (p : Phase) : Phase := if p = .asleep then .awake else p

end Sys2Proof.Machine
end

