-- ==== Sys2Proof/Machine/Ops.lean ====
section
/-! DEFINITION. The shared operations: the line and time primitives (spec/00_scope.md R12), the Bus Transport
primitives (spec/40_bus_transport.md R130 to R135), the life cycle of a request (R17) and its one exception
(R14; spec/60_exceptions.md R223). -/

namespace Sys2Proof.Machine

/-! ## Lines -/

/-- The level of a line; none for `RST` where it does not exist. -/
def Lines.get (ls : Lines) : Line → Option Level
  | .cs => some ls.cs
  | .clk => some ls.clk
  | .mosi => some ls.mosi
  | .dc => some ls.dc
  | .rst => ls.rst

/-- The levels after one line takes a level; a line that does not exist takes none. -/
def Lines.set (ls : Lines) (l : Line) (v : Level) : Lines :=
  match l with
  | .cs => { ls with cs := v }
  | .clk => { ls with clk := v }
  | .mosi => { ls with mosi := v }
  | .dc => { ls with dc := v }
  | .rst => { ls with rst := ls.rst.map (fun _ => v) }

/-- What `Drive(L, v)` records: the event, unless the line has the level already (R12) or does not exist
(log entry 11). -/
def Lines.driveEvents (ls : Lines) (l : Line) (v : Level) : List Event :=
  match ls.get l with
  | none => []
  | some cur => if cur = v then [] else [.line l v]

/-- `Drive(L, v)`: the line has the level `v` afterwards, and a change is recorded (R12). -/
def State.drive (l : Line) (v : Level) (s : State) : State :=
  { s with lines := s.lines.set l v, trace := s.trace ++ s.lines.driveEvents l v }

/-- `Delay(ms)`: recorded, a lower bound (R12). -/
def State.delay (ms : Nat) (s : State) : State := { s with trace := s.trace ++ [.delay ms] }

/-! ## Bus Transport primitives -/

/-- One bit: clock low, the data line takes bit `i` of `SHIFT`, clock high; `i` bits remain (R130). -/
def State.sendBit (i : Nat) (s : State) : State :=
  { ((s.drive .clk false).drive .mosi (s.shift.getLsbD i)).drive .clk true with bitcnt := BitVec.ofNat 5 i }

/-- The bits `i - 1` down to 0 of `SHIFT` (R130). -/
def State.shiftOut : Nat → State → State
  | 0, s => s
  | i + 1, s => State.shiftOut i (s.sendBit i)

/-- Loads the serializer: `SHIFT` the value, `BITCNT` the bits to send (spec/10_state.md R33; log entry 9). -/
def State.loadShift (v : Half) (n : Nat) (s : State) : State :=
  { s with shift := v, bitcnt := BitVec.ofNat 5 n }

/-- Sends the `BITCNT` low bits of `SHIFT` inside one chip-select pulse (R130). -/
def State.frameOut (s : State) : State :=
  (State.shiftOut s.bitcnt.toNat (s.drive .cs false)).drive .cs true

/-- `SendBits(v, n)`, `1 <= n <= 16` (R130). -/
def State.sendBits (v : Half) (n : Nat) (s : State) : State := (s.loadShift v n).frameOut

/-- `SendByte(b)` (R131). -/
def State.sendByte (b : Byte) (s : State) : State := s.sendBits (zext16 b) 8

/-- `Cmd(b)` (R132). -/
def State.cmd (b : Byte) (s : State) : State := (s.drive .dc false).sendByte b

/-- `DataMode()` (R133). -/
def State.dataMode (s : State) : State := s.drive .dc true

/-- `Dat(b)` (R134). -/
def State.dat (b : Byte) (s : State) : State := s.sendByte b

/-! ## The transient registers after the request that used them

Their value between requests is unspecified (spec/10_state.md R33; U15): each group becomes a free value
(log entry 8). -/

/-- `SHIFT` and `BITCNT`. -/
def State.retireSerializer (s : State) : State :=
  { s with shift := Config.freeShift s.freeCtr, bitcnt := Config.freeBitcnt s.freeCtr }

/-- `IDX` and `PIDX` (R30: "Outside INIT its value is unspecified"). -/
def State.retireSequencer (s : State) : State :=
  { s with idx := Config.freeIdx s.freeCtr, pidx := Config.freePidx s.freeCtr }

/-- `WIN`, `COL0`, `COL1`, `ROW0`, `ROW1`. -/
def State.retireWindow (s : State) : State :=
  { s with
    win := ⟨Config.freeWinX1 s.freeCtr, Config.freeWinY1 s.freeCtr, Config.freeWinX2 s.freeCtr,
      Config.freeWinY2 s.freeCtr⟩
    col0 := Config.freeCol0 s.freeCtr
    col1 := Config.freeCol1 s.freeCtr
    row0 := Config.freeRow0 s.freeCtr
    row1 := Config.freeRow1 s.freeCtr }

/-- `PIXCNT`. -/
def State.retirePixcnt (s : State) : State := { s with pixcnt := Config.freePixcnt s.freeCtr }

/-! ## The life cycle of a request -/

/-- Acceptance: `BUSY <- 1`, the attached buffer becomes PIXBUF (R17; spec/20_memory.md R63). -/
def State.accept (pix : List Byte) (s : State) : State :=
  { s with busy := true, pixbuf := Memory.ofBytes 0 pix }

/-- `Respond(OK)` (R17); the next free values are fresh ones. -/
def State.respondOk (s : State) : State :=
  { s with rsp := ⟨statusOk, 0⟩, busy := false, freeCtr := s.freeCtr + 1 }

/-- `raise InvalidArgument(cause)`: `RSP` takes the status and the cause, `BUSY` falls, no other register
changes (R14; spec/60_exceptions.md R223). There is no return operation (R224). -/
def State.raise (c : Cause) (s : State) : State :=
  { s with rsp := ⟨statusInvalid, c.code⟩, busy := false }

end Sys2Proof.Machine
end

