-- ==== Sys2Proof/Machine/Addressing.lean ====
section
/-! DEFINITION. The Addressing and Orientation Mapper: ORIENT, WINDOW (spec/42_addressing_orientation.md). -/

namespace Sys2Proof.Machine

/-! ## ORIENT -/

/-- `C(OP_MADCTL) D(ORIENT_TABLE[k])` (R170, R172). -/
def sendMadctl (k : BitVec 2) (s : State) : State :=
  ((s.cmd s.desc.opMadctl).dataMode).dat (orientRead s.desc k)

/-- `ORIENT <- k` (R173). -/
def setOrient (k : BitVec 2) (s : State) : State := { s with orient := k }

/-- ORIENT (R170, R171, R181). -/
def execOrient (code : Half) (s : State) : Host.Outcome State Fault Refusal :=
  if orientLegal code then
    let k : BitVec 2 := code.setWidth 2
    .next (sendMadctl k (setOrient k
      (s.violateIf (s.phase != .awake) .orientNotAwake))).retireSerializer.respondOk
  else .next (s.raise .orientRange)

/-! ## WINDOW -/

/-- One address command: the opcode, then start and end, each high byte first (R176; spec/20_memory.md R68). -/
def sendRange (opcode : Byte) (v0 v1 : Half) (s : State) : State :=
  (((((s.cmd opcode).dataMode).dat (hi8 v0)).dat (lo8 v0)).dat (hi8 v1)).dat (lo8 v1)

/-- `WIN` and the range check (R175 to R177). -/
def latchWindow (w : Win) (s : State) : State :=
  let t : State := { s with win := w }
  t.violateIf (outOfRange s.desc (axisMode s.orient) (transform s.orient s.offx s.offy w)) .windowRange

/-- `COL0`, `COL1`, `ROW0`, `ROW1`: the low 16 bits of the sums over `WIN` (R176, R179). -/
def latchPanel (s : State) : State :=
  let p := transform s.orient s.offx s.offy s.win
  { s with
    col0 := BitVec.ofNat 16 p.c0
    col1 := BitVec.ofNat 16 p.c1
    row0 := BitVec.ofNat 16 p.r0
    row1 := BitVec.ofNat 16 p.r1 }

/-- The frames of `SetWindow`, from the latched columns and rows (R176). It ends in command mode (R180). -/
def sendWindow (s : State) : State :=
  let t := sendRange s.desc.opCaset s.col0 s.col1 s
  let u := sendRange t.desc.opRaset t.row0 t.row1 t
  u.cmd u.desc.opRamwr

/-- `SetWindow(x1, y1, x2, y2)` (R176). -/
def setWindow (w : Win) (s : State) : State := sendWindow (latchPanel (latchWindow w s))

/-- WINDOW (R174, R178, R181). -/
def execWindow (x1 y1 x2 y2 : Half) (s : State) : Host.Outcome State Fault Refusal :=
  if windowOrdered x1 y1 x2 y2 then
    .next (setWindow ⟨x1, y1, x2, y2⟩
      (s.violateIf (s.phase != .awake) .windowNotAwake)).retireSerializer.retireWindow.respondOk
  else .next (s.raise .windowOrder)

end Sys2Proof.Machine
end

