-- ==== Sys2Proof/Machine/BlitPower.lean ====
section
/-! DEFINITION. The Blit/Flush Driver and Power State Control: FLUSH, SLPIN, SLPOUT (spec/43_blit_power.md). -/

namespace Sys2Proof.Machine

/-- Loads `PIXCNT` (R190, R194). -/
def loadPixcnt (n : Nat) (s : State) : State := { s with pixcnt := BitVec.ofNat 34 n }

/-- One pixel byte, then `PIXCNT` counts what is left (R190). -/
def sendPixel (b : Byte) (left : Nat) (s : State) : State := loadPixcnt left (s.dat b)

/-- The stream loop of FLUSH: `left` bytes, the next one at offset `k`, in ascending order, each read once
(R190, R193); none where the buffer has no byte at the offset. -/
def streamLoop : Nat → Nat → State → Option State
  | 0, _, s => some s
  | left + 1, k, s =>
    match pixRead s k with
    | none => none
    | some b => streamLoop left (k + 1) (sendPixel b left s)

/-- Streams `PIXCNT` bytes from offset 0. -/
def stream (s : State) : Option State := streamLoop s.pixcnt.toNat 0 s

/-- FLUSH (R190, R192, R200). A buffer shorter than `N` bytes is refused (spec/30_encoding.md R97; U6). -/
def execFlush (x1 y1 x2 y2 : Half) (s : State) : Host.Outcome State Fault Refusal :=
  if windowOrdered x1 y1 x2 y2 then
    match stream (loadPixcnt (pixelBytes x1 y1 x2 y2)
        (setWindow ⟨x1, y1, x2, y2⟩ (s.violateIf (s.phase != .awake) .flushNotAwake)).dataMode) with
    | none => .refused .pixelBufferTooShort
    | some t => .next t.retireSerializer.retireWindow.retirePixcnt.respondOk
  else .next (s.raise .windowOrder)

/-- `PHASE <- p`. -/
def setPhase (p : Phase) (s : State) : State := { s with phase := p }

/-- SLPIN (R197, R199, R200). -/
def execSlpin (s : State) : Host.Outcome State Fault Refusal :=
  .next (setPhase s.phase.afterSlpin
    ((s.violateIf (s.phase != .awake) .slpinNotAwake).cmd s.desc.opSlpin)).retireSerializer.respondOk

/-- SLPOUT (R198, R199, R200). -/
def execSlpout (s : State) : Host.Outcome State Fault Refusal :=
  .next (setPhase s.phase.afterSlpout
    ((s.violateIf (s.phase != .asleep) .slpoutNotAsleep).cmd s.desc.opSlpout)).retireSerializer.respondOk

end Sys2Proof.Machine
end

