-- ==== Sys2Proof/Machine/BusTransport.lean ====
section
/-! DEFINITION. Bus Transport requests: SENDBITS, SENDBYTE (spec/40_bus_transport.md section 3). -/

namespace Sys2Proof.Machine

/-- SENDBITS (R140, R142). It does not write `DC`. -/
def execSendbits (value bitCount : Half) (s : State) : Host.Outcome State Fault Refusal :=
  if bitCountLegal bitCount then
    .next (s.sendBits value bitCount.toNat).retireSerializer.respondOk
  else .next (s.raise .badBitcount)

/-- SENDBYTE (R141). It does not write `DC`. -/
def execSendbyte (value : Byte) (s : State) : Host.Outcome State Fault Refusal :=
  .next (s.sendByte value).retireSerializer.respondOk

end Sys2Proof.Machine
end

