-- ==== Sys2Proof/Machine/CommandSequencer.lean ====
section
/-! DEFINITION. The Command Sequencer: INIT (spec/41_command_sequencer.md). -/

namespace Sys2Proof.Machine

/-- The parameter byte the sequencer sends at `PIDX`: the stored one, or the orientation byte in the row of the
orientation hook (R150, R154). -/
def paramByte (row : InitRow) (s : State) : Byte :=
  if s.desc.orientHook = some row.opcode ∧ s.pidx.toNat = 0 then orientRead s.desc s.orient
  else row.params.getD s.pidx.toNat 0

/-- The remaining `k` parameters of a row, from `PIDX` on (R150, R151). -/
def sendParams (row : InitRow) : Nat → State → State
  | 0, s => s
  | k + 1, s =>
    let t := s.dat (paramByte row s)
    sendParams row k { t with pidx := t.pidx + 1 }

/-- The opcode and the parameters of a row (R151); `DataMode()` also when the count is 0 (R156). -/
def sendRow (row : InitRow) (s : State) : State :=
  let t := (s.cmd row.opcode).dataMode
  sendParams row row.parameterCount { t with pidx := 0 }

/-- The settle delay of a row that asks for it (R153). -/
def settle (row : InitRow) (s : State) : State :=
  { s with trace := s.trace ++ (if row.delayAfter then [.delay s.desc.settleMs] else []) }

/-- One row, then `IDX <- IDX + 1` (R150). -/
def runRow (row : InitRow) (s : State) : State :=
  let t := settle row (sendRow row s)
  { t with idx := t.idx + 1 }

/-- The loop of INIT: rows from `IDX` on, up to the first sentinel (R150, R152). `fuel` bounds the rows read;
none if a read goes beyond the stored rows, which no well-formed table lets happen. -/
def initLoop : Nat → State → Option State
  | 0, _ => none
  | fuel + 1, s =>
    match tabRow s.desc s.idx with
    | none => none
    | some row => if row.ctl = .stop then some s else initLoop fuel (runRow row s)

/-- The legality checks of INIT (R158). -/
def State.initLegality (s : State) : State :=
  (s.violateIf (s.phase != .uninitialized) .initRepeated).violateIf
    (s.desc.hasReset && !s.rstdone) .initWithoutReset

/-- INIT (R150). A descriptor that is not well-formed is refused (spec/00_scope.md R8; R152). -/
def execInit (s : State) : Host.Outcome State Fault Refusal :=
  if s.desc.wf then
    match initLoop s.desc.initTable.length { s.initLegality with idx := 0 } with
    | none => .refused .illFormedDescriptor
    | some t => .next ({ t with phase := .awake }).retireSerializer.retireSequencer.respondOk
  else .refused .illFormedDescriptor

end Sys2Proof.Machine
end

