-- ==== Sys2Proof/Machine/PowerReset.lean ====
section
/-! DEFINITION. Power-on reset: HWRESET (spec/44_power_on_reset.md). -/

namespace Sys2Proof.Machine

/-- The pulse on the panel's reset line, if there is one (R210, R211). -/
def resetPulse (s : State) : State :=
  if s.desc.hasReset then
    (((s.drive .rst false).delay s.desc.resetLowMs).drive .rst true).delay s.desc.resetHighMs
  else s

/-- HWRESET (R210 to R212). -/
def execHwreset (s : State) : Host.Outcome State Fault Refusal :=
  .next ({ resetPulse (s.violateIf (s.phase != .uninitialized) .hwresetAfterInit) with
    rstdone := true, phase := .uninitialized } : State).respondOk

end Sys2Proof.Machine
end

