-- ==== Sys2Proof/Machine/Dispatch.lean ====
section
/-! DEFINITION. The dispatch of the nine requests to their meanings (spec/30_encoding.md R92). -/

namespace Sys2Proof.Machine

def exec (i : Instr) (s : State) : Host.Outcome State Fault Refusal :=
  match i with
  | .sendbits value bitCount => Sys2Proof.Machine.execSendbits value bitCount s
  | .sendbyte value => Sys2Proof.Machine.execSendbyte value s
  | .init => Sys2Proof.Machine.execInit s
  | .orient code => Sys2Proof.Machine.execOrient code s
  | .window x1 y1 x2 y2 => Sys2Proof.Machine.execWindow x1 y1 x2 y2 s
  | .flush x1 y1 x2 y2 => Sys2Proof.Machine.execFlush x1 y1 x2 y2 s
  | .slpin => Sys2Proof.Machine.execSlpin s
  | .slpout => Sys2Proof.Machine.execSlpout s
  | .hwreset => Sys2Proof.Machine.execHwreset s

end Sys2Proof.Machine
end

