-- ==== Sys2Proof/Machine/Port.lean ====
section
/-! DEFINITION. The request port (spec/30_encoding.md R90; spec/00_scope.md R17): what the engine takes from it,
and what presenting a request does. -/

namespace Sys2Proof.Machine

/-- The state in which the request at the head of the port has been accepted (R17). -/
def State.acceptNext (r : Request) (rest : List Request) (s : State) : State :=
  ({ s with pending := rest } : State).accept r.pix

/-- The state in which the host presents `r` next, on a port that is ready. -/
def State.present (r : Request) (s : State) : State :=
  { s with busy := false, pending := r :: s.pending }

/-- The payload that makes any word a complete request: `N` zero bytes for a FLUSH of an ordered window (R97),
nothing else. -/
def zeroPayload (w : ReqWord) : List Byte :=
  match decode w with
  | .ok (.flush x1 y1 x2 y2) =>
    if windowOrdered x1 y1 x2 y2 then List.replicate (pixelBytes x1 y1 x2 y2) 0 else []
  | _ => []

/-- The request of an instruction-table word (log entry 4). -/
def fetchRequest (nbits w : Nat) : Request :=
  let word : ReqWord := BitVec.ofNat 72 (w % 2 ^ nbits)
  { word := word, pix := zeroPayload word }

/-- POWERON (R108; spec/44_power_on_reset.md R213): HWRESET, then INIT. -/
def powerOn : List Request := [⟨encode .hwreset, []⟩, ⟨encode .init, []⟩]

end Sys2Proof.Machine
end

