-- ==== Sys2Proof/Machine/Step.lean ====
section
/-! DEFINITION. One step: the engine accepts the next request and executes it to its response
(spec/00_scope.md R16, R17; spec/60_exceptions.md R225). -/

namespace Sys2Proof.Machine

/-- One step. An ill-formed descriptor is refused (R8). With no request presented the engine stays idle
(spec/70_reset_and_hazards.md R251). A reserved `op` is rejected (spec/30_encoding.md R95). -/
def step (s : State) : Host.Outcome State Fault Refusal :=
  if s.desc.wf then
    if s.busy then .fault .portBusy
    else
      match s.pending with
      | [] => .next s
      | r :: rest =>
        match decode r.word with
        | .error _ => .next ((s.acceptNext r rest).raise .badOp)
        | .ok i => exec i (s.acceptNext r rest)
  else .refused .illFormedDescriptor

/-- `s` with a request presented next on the request port (log entry 4). -/
def State.withFetchWord (s : State) (nbits w : Nat) : State := s.present (fetchRequest nbits w)

end Sys2Proof.Machine
end

