-- ==== Sys2Proof/Machine/Assembler.lean ====
section
/-! DEFINITION. The textual syntax of requests (spec/30_encoding.md R107, R108): one request per line, a mnemonic
and decimal or `0x` operands, `;` starting a comment. Choices of the model: log entry 16. -/

namespace Sys2Proof.Machine

/-- Why a line is no request. -/
inductive AsmError where
  /-- The first word is no mnemonic of R107 and not POWERON, or the operands have another shape. -/
  | badLine
  /-- An operand is no number, or does not fit its field. -/
  | badOperand
  deriving DecidableEq, Repr

/-- The tokens of a line. -/
inductive Tok where
  | word (cs : List Char)
  | comma
  | lbrack
  | rbrack
  deriving DecidableEq, Repr

/-- Closes a word read so far (its characters in reverse). -/
def flushWord (acc : List Char) : List Tok := if acc.isEmpty then [] else [.word acc.reverse]

/-- The tokens of a line, `acc` the word being read in reverse; `;` ends the line. -/
def tokens (acc : List Char) : List Char → List Tok
  | [] => flushWord acc
  | c :: cs =>
    if c = ';' then flushWord acc
    else if c = ' ' ∨ c = '\t' ∨ c = '\r' then flushWord acc ++ tokens [] cs
    else if c = ',' then flushWord acc ++ .comma :: tokens [] cs
    else if c = '[' then flushWord acc ++ .lbrack :: tokens [] cs
    else if c = ']' then flushWord acc ++ .rbrack :: tokens [] cs
    else tokens (c :: acc) cs

/-- The value of a digit in bases up to 16. -/
def digitValue (base : Nat) (c : Char) : Option Nat :=
  let n := c.toNat
  let v := if 48 ≤ n ∧ n ≤ 57 then n - 48
    else if 65 ≤ n ∧ n ≤ 70 then n - 55
    else if 97 ≤ n ∧ n ≤ 102 then n - 87
    else base
  if v < base then some v else none

/-- A digit string as a number, `acc` the value of the digits before it. -/
def digitsValue (base : Nat) (acc : Nat) : List Char → Option Nat
  | [] => some acc
  | c :: cs =>
    match digitValue base c with
    | none => none
    | some v => digitsValue base (base * acc + v) cs

/-- A nonempty digit string. -/
def number (base : Nat) (cs : List Char) : Option Nat :=
  if cs.isEmpty then none else digitsValue base 0 cs

/-- A decimal or `0x` operand of at most 16 bits (R91, R107). -/
def operand (cs : List Char) : Except AsmError Half :=
  let v := match cs with
    | '0' :: 'x' :: hex => number 16 hex
    | _ => number 10 cs
  match v with
  | none => .error .badOperand
  | some n => if n < 2 ^ 16 then .ok (BitVec.ofNat 16 n) else .error .badOperand

/-- The operand of SENDBYTE: its low byte, zeros in the high byte of the field (R94, R107; log entry 16). -/
def byteOperand (cs : List Char) : Except AsmError Half :=
  match operand cs with
  | .error e => .error e
  | .ok v => .ok (zext16 (lo8 v))

/-- A byte of a FLUSH payload: hexadecimal, with or without `0x`. -/
def payloadByte (cs : List Char) : Except AsmError Byte :=
  let v := match cs with
    | '0' :: 'x' :: hex => number 16 hex
    | _ => number 16 cs
  match v with
  | none => .error .badOperand
  | some n => if n < 2 ^ 8 then .ok (BitVec.ofNat 8 n) else .error .badOperand

/-- The payload bytes up to the closing bracket, which ends the line. -/
def payload : List Tok → Except AsmError (List Byte)
  | [.rbrack] => .ok []
  | .word cs :: ts =>
    match payloadByte cs with
    | .error e => .error e
    | .ok b =>
      match payload ts with
      | .error e => .error e
      | .ok bs => .ok (b :: bs)
  | _ => .error .badLine

/-- A request with the given opcode and operand fields (R107). -/
def asmRequest (op : Byte) (a b c d : Except AsmError Half) (pix : List Byte) : Except AsmError (List Request) :=
  match a, b, c, d with
  | .ok a, .ok b, .ok c, .ok d => .ok [⟨reqWord op a b c d, pix⟩]
  | _, _, _, _ => .error .badOperand

/-- A line with a mnemonic alone; POWERON is HWRESET then INIT (R108). -/
def asmBare (m : List Char) : Except AsmError (List Request) :=
  let z : Except AsmError Half := .ok 0
  if m = "INIT".toList then asmRequest 0x03 z z z z []
  else if m = "SLPIN".toList then asmRequest 0x07 z z z z []
  else if m = "SLPOUT".toList then asmRequest 0x08 z z z z []
  else if m = "HWRESET".toList then asmRequest 0x09 z z z z []
  else if m = "POWERON".toList then .ok powerOn
  else .error .badLine

/-- The requests a line of tokens stands for (R107, R108); a blank line stands for none. -/
def asmLine : List Tok → Except AsmError (List Request)
  | [] => .ok []
  | [.word m] => asmBare m
  | [.word m, .word a] =>
    if m = "SENDBYTE".toList then asmRequest 0x02 (byteOperand a) (.ok 0) (.ok 0) (.ok 0) []
    else if m = "ORIENT".toList then asmRequest 0x04 (operand a) (.ok 0) (.ok 0) (.ok 0) []
    else .error .badLine
  | [.word m, .word a, .comma, .word b] =>
    if m = "SENDBITS".toList then asmRequest 0x01 (operand a) (operand b) (.ok 0) (.ok 0) []
    else .error .badLine
  | [.word m, .word a, .comma, .word b, .comma, .word c, .comma, .word d] =>
    if m = "WINDOW".toList then asmRequest 0x05 (operand a) (operand b) (operand c) (operand d) []
    else .error .badLine
  | .word m :: .word a :: .comma :: .word b :: .comma :: .word c :: .comma :: .word d :: .comma :: .lbrack :: ts =>
    if m = "FLUSH".toList then
      match payload ts with
      | .error e => .error e
      | .ok bs => asmRequest 0x06 (operand a) (operand b) (operand c) (operand d) bs
    else .error .badLine
  | _ => .error .badLine

/-- The lines of a text. -/
def linesOf : List Char → List (List Char)
  | [] => [[]]
  | c :: cs =>
    match linesOf cs with
    | [] => [[c]]
    | l :: ls => if c = '\n' then [] :: l :: ls else (c :: l) :: ls

/-- The requests of a list of lines, in order. -/
def asmLines : List (List Char) → Except AsmError (List Request)
  | [] => .ok []
  | l :: ls =>
    match asmLine (tokens [] l), asmLines ls with
    | .ok rs, .ok more => .ok (rs ++ more)
    | .error e, _ => .error e
    | _, .error e => .error e

/-- The requests a program text stands for, in order. -/
def assemble (text : String) : Except AsmError (List Request) := asmLines (linesOf text.toList)

end Sys2Proof.Machine
end

