-- ==== Sys2Proof/Machine/Frames.lean ====
section
/-! DEFINITION. The observation: the frame trace of a line-level trace (spec/40_bus_transport.md R137;
spec/00_scope.md R13), counts over a trace, and the line discipline (spec/70_reset_and_hazards.md R265). -/

namespace Sys2Proof.Machine

/-- What the frame trace lists: `C(n, val)`, `D(n, val)`, `RST(x)`, `Delay(ms)` (R13). -/
inductive FrameEvent where
  | cmd (n val : Nat)
  | data (n val : Nat)
  | rst (v : Level)
  | delay (ms : Nat)
  deriving DecidableEq, Repr

/-- `C(b)` for a byte. -/
def FrameEvent.cmdByte (b : Byte) : FrameEvent := .cmd 8 b.toNat

/-- `D(b)` for a byte. -/
def FrameEvent.dataByte (b : Byte) : FrameEvent := .data 8 b.toNat

/-- The scan's state: the line levels `L`, and the open frame's mode and bits, first bit first. -/
structure Scan where
  lines : Lines
  frame : Option (Level × List Level)
  deriving DecidableEq, Repr

/-- Bits read as a number, the first bit most significant (R137). -/
def bitsValue (bits : List Level) : Nat := bits.foldl (fun acc b => 2 * acc + b.toNat) 0

/-- A closed frame as a frame event. -/
def closeFrame (mode : Level) (bits : List Level) : FrameEvent :=
  if mode then .data bits.length (bitsValue bits) else .cmd bits.length (bitsValue bits)

/-- The scan after one event (R137). -/
def Scan.next (c : Scan) (e : Event) : Scan :=
  match e with
  | .line .cs false => { lines := c.lines.set .cs false, frame := some (c.lines.dc, []) }
  | .line .cs true => { lines := c.lines.set .cs true, frame := none }
  | .line .clk true =>
    { lines := c.lines.set .clk true, frame := c.frame.map (fun f => (f.1, f.2 ++ [c.lines.mosi])) }
  | .line l v => { c with lines := c.lines.set l v }
  | .delay _ => c

/-- What one event emits (R137). -/
def Scan.emit (c : Scan) (e : Event) : List FrameEvent :=
  match e with
  | .line .cs true =>
    match c.frame with
    | some f => [closeFrame f.1 f.2]
    | none => []
  | .line .rst v => [.rst v]
  | .delay ms => [.delay ms]
  | .line _ _ => []

/-- The scan after a trace. -/
def Scan.after (c : Scan) : List Event → Scan
  | [] => c
  | e :: es => (c.next e).after es

/-- The frame trace of a trace, scanned from `c`. -/
def Scan.frames (c : Scan) : List Event → List FrameEvent
  | [] => []
  | e :: es => c.emit e ++ (c.next e).frames es

/-- The frame trace of events that begin at the given levels, with no frame open. -/
def framesFrom (ls : Lines) (es : List Event) : List FrameEvent := Scan.frames ⟨ls, none⟩ es

/-- `Frames(T)` for an instance configured with `d` (R137): scanned from the reset levels. -/
def framesOf (d : Desc) (es : List Event) : List FrameEvent := framesFrom (Lines.reset d.hasReset) es

/-- The line levels after a trace. -/
def Lines.replay (ls : Lines) : List Event → Lines
  | [] => ls
  | .line l v :: es => Lines.replay (ls.set l v) es
  | .delay _ :: es => Lines.replay ls es

/-! ## Counts -/

/-- The milliseconds a trace takes at least: the sum of its delays (spec/70_reset_and_hazards.md R271). -/
def delayTotal : List Event → Nat
  | [] => 0
  | .delay ms :: es => ms + delayTotal es
  | .line _ _ :: es => delayTotal es

/-- The clock pulses of a trace: its `(CLK, 1)` events (R271). -/
def clockPulses : List Event → Nat
  | [] => 0
  | .line .clk true :: es => clockPulses es + 1
  | _ :: es => clockPulses es

/-- The positions at which a level followed by bits changes (spec/40_bus_transport.md R139). -/
def levelChanges (cur : Level) : List Level → Nat
  | [] => 0
  | b :: bs => (if b = cur then 0 else 1) + levelChanges b bs

/-- `v[n-1], v[n-2], ..., v[0]` (R130). -/
def bitsOf (v : Half) : Nat → List Level
  | 0 => []
  | n + 1 => v.getLsbD n :: bitsOf v n

/-- Is the frame event a command frame? -/
def FrameEvent.isCmd : FrameEvent → Bool
  | .cmd _ _ => true
  | .data _ _ => false
  | .rst _ => false
  | .delay _ => false

/-- Is the frame event a data frame? -/
def FrameEvent.isData : FrameEvent → Bool
  | .cmd _ _ => false
  | .data _ _ => true
  | .rst _ => false
  | .delay _ => false

/-- Is the frame event a delay? -/
def FrameEvent.isDelay : FrameEvent → Bool
  | .cmd _ _ => false
  | .data _ _ => false
  | .rst _ => false
  | .delay _ => true

/-! ## The line discipline -/

/-- May the event happen at these levels? Every line event is a change; `DC` and `RST` change and a delay passes
only while `CS = 1`; `MOSI` changes only inside a frame while `CLK = 0`; `CLK` changes only inside a frame; a
frame opens and closes with `CLK = 1` (R135, R265; spec/40_bus_transport.md R130). -/
def eventDisciplined (ls : Lines) : Event → Bool
  | .line .cs v => (ls.cs != v) && ls.clk
  | .line .clk v => (ls.clk != v) && !ls.cs
  | .line .mosi v => (ls.mosi != v) && !ls.cs && !ls.clk
  | .line .dc v => (ls.dc != v) && ls.cs
  | .line .rst v => (ls.rst == some (!v)) && ls.cs
  | .delay _ => ls.cs

/-- Every event of the trace keeps the discipline, from the given levels on. -/
def disciplined (ls : Lines) : List Event → Bool
  | [] => true
  | e :: es => eventDisciplined ls e && disciplined (ls.replay [e]) es

end Sys2Proof.Machine
end

