-- ==== Sys2Proof/Machine/Instances.lean ====
section
/-! DEFINITION. Several engine instances (spec/60_exceptions.md R235): they share no state, so a system of `k`
instances is `k` independent machines. -/

namespace Sys2Proof.Machine

/-- The instances of a platform; an instance has no name but its place (R235). -/
abbrev Instances := List State

/-- The host presents a request to instance `k`. -/
def presentAt (k : Nat) (r : Request) (sys : Instances) : Instances := sys.modify k (State.present r)

/-- Instance `k` makes one step; none where it has no next state or does not exist. -/
def stepAt (k : Nat) (sys : Instances) : Option Instances :=
  match sys[k]? with
  | none => none
  | some s =>
    match step s with
    | .next t => some (sys.set k t)
    | .fault _ => none
    | .refused _ => none

end Sys2Proof.Machine
end

