-- ==== Sys2Proof/Safety.lean ====
section
/-! DEFINITION. The terms claims use: which request is rejected, which use breaks a duty of the host, which phase
follows (spec/60_exceptions.md R221, R230, R231; spec/70_reset_and_hazards.md R255, R260 to R264), and the
invariant between requests (spec/10_state.md R37). -/

namespace Sys2Proof.Machine

/-- The cause with which a request is rejected, if its argument check fails (R221, R225). -/
def argumentError : Instr → Option Cause
  | .sendbits _ n => if n.toNat < 1 ∨ 16 < n.toNat then some .badBitcount else none
  | .orient k => if 3 < k.toNat then some .orientRange else none
  | .window x1 y1 x2 y2 => if x2.toNat < x1.toNat ∨ y2.toNat < y1.toNat then some .windowOrder else none
  | .flush x1 y1 x2 y2 => if x2.toNat < x1.toNat ∨ y2.toNat < y1.toNat then some .windowOrder else none
  | .sendbyte _ => none
  | .init => none
  | .slpin => none
  | .slpout => none
  | .hwreset => none

/-- `[r]` if the condition holds. -/
def reasonIf (c : Prop) [Decidable c] (r : Violation) : List Violation := if c then [r] else []

/-- The range condition of R177 and R230 on a window's end corner, by the axis mode of the state. -/
abbrev rangeViolated (s : State) (x2 y2 : Half) : Prop :=
  if s.orient.toNat < 2 then
    s.desc.colMax0.toNat < x2.toNat + s.offx.toNat ∨ s.desc.rowMax0.toNat < y2.toNat + s.offy.toNat
  else
    s.desc.colMax1.toNat < x2.toNat + s.offy.toNat ∨ s.desc.rowMax1.toNat < y2.toNat + s.offx.toNat

/-- The reasons an accepted request violates (the table of R230), in the table's order. -/
def violationsOf (i : Instr) (s : State) : List Violation :=
  match i with
  | .sendbits _ _ => []
  | .sendbyte _ => []
  | .init =>
    reasonIf (s.phase ≠ .uninitialized) .initRepeated ++
      reasonIf (s.desc.hasReset = true ∧ s.rstdone = false) .initWithoutReset
  | .orient _ => reasonIf (s.phase ≠ .awake) .orientNotAwake
  | .window _ _ x2 y2 =>
    reasonIf (s.phase ≠ .awake) .windowNotAwake ++ reasonIf (rangeViolated s x2 y2) .windowRange
  | .flush _ _ x2 y2 =>
    reasonIf (s.phase ≠ .awake) .flushNotAwake ++ reasonIf (rangeViolated s x2 y2) .windowRange
  | .slpin => reasonIf (s.phase ≠ .awake) .slpinNotAwake
  | .slpout => reasonIf (s.phase ≠ .asleep) .slpoutNotAsleep
  | .hwreset => reasonIf (s.phase ≠ .uninitialized) .hwresetAfterInit

/-- The phase an accepted request leaves (the table of R231). -/
def nextPhase (i : Instr) (p : Phase) : Phase :=
  match i, p with
  | .hwreset, _ => .uninitialized
  | .init, _ => .awake
  | .slpin, .awake => .asleep
  | .slpin, .asleep => .asleep
  | .slpin, .uninitialized => .uninitialized
  | .slpout, .asleep => .awake
  | .slpout, .awake => .awake
  | .slpout, .uninitialized => .uninitialized
  | .sendbits _ _, q => q
  | .sendbyte _, q => q
  | .orient _, q => q
  | .window _ _ _ _, q => q
  | .flush _ _ _ _, q => q

/-- The first `n` bytes of a memory are listed, as `bytes`. -/
def Memory.holds (m : Memory) (bytes : List Byte) : Prop :=
  ∀ k, k < bytes.length → Memory.read m k = bytes[k]?

/-- The attached buffer covers the pixels of an ordered window (R97, R263). -/
def payloadCovers (i : Instr) (s : State) : Prop :=
  match i with
  | .flush x1 y1 x2 y2 =>
    (x1.toNat ≤ x2.toNat ∧ y1.toNat ≤ y2.toNat) →
      ∀ k, k < pixelBytes x1 y1 x2 y2 → (Memory.read s.pixbuf k).isSome = true
  | _ => True

/-- The host keeps its duties with this request: it is not rejected, breaks no precondition, and its payload is
complete (R255, R261, R263, R264). -/
def HostDutyKept (i : Instr) (s : State) : Prop :=
  argumentError i = none ∧ violationsOf i s = [] ∧ payloadCovers i s

/-- The premise of every claim about the panel (spec/00_scope.md R15). -/
def SafeRun (s : State) : Prop := s.viol = false

/-- The reasons are listed in the order of R230's table without repeats: equal sets are equal lists. -/
def reasonsWf : List Violation → Bool
  | [] => true
  | [_] => true
  | a :: b :: l => decide (a.place < b.place) && reasonsWf (b :: l)

/-- The responses a request may leave: OK with cause 0, or INVALID_ARGUMENT with a cause of R221. -/
def rspLegal (r : Rsp) : Bool :=
  (r.status == 0 && r.cause == 0) || (r.status == 1 && decide (1 ≤ r.cause.toNat) && decide (r.cause.toNat ≤ 4))

/-! ## The frames the spec lists (spec/30_encoding.md R105) -/

/-- The byte the orientation table holds for a code (R98; spec/20_memory.md R62). -/
def orientByte (d : Desc) (code : Nat) : Byte :=
  if code = 0 then d.orientTable.portrait
  else if code = 1 then d.orientTable.portraitInverted
  else if code = 2 then d.orientTable.landscape
  else d.orientTable.landscapeInverted

/-- The data bytes of an init row: the orientation byte in the hook's row, else the first `parameterCount` stored
bytes (R100; spec/41_command_sequencer.md R154). -/
def rowBytes (d : Desc) (code : Nat) (r : InitRow) : List Byte :=
  if d.orientHook = some r.opcode then [orientByte d code] else r.params.take r.parameterCount

/-- The frames of an init row and its settle delay (R105, R151). -/
def rowFrames (d : Desc) (code : Nat) (r : InitRow) : List FrameEvent :=
  .cmdByte r.opcode :: ((rowBytes d code r).map .dataByte ++
    (if r.delayAfter then [.delay d.settleMs] else []))

/-- Two data frames carrying the low 16 bits of a sum, high byte first (spec/20_memory.md R68). -/
def wordFrames (v : Nat) : List FrameEvent := [.data 8 (v % 65536 / 256), .data 8 (v % 256)]

/-- The 11 frames of an address window with the given column and row bounds (R105). -/
def windowFrames (d : Desc) (c0 c1 r0 r1 : Nat) : List FrameEvent :=
  .cmdByte d.opCaset :: (wordFrames c0 ++ wordFrames c1 ++
    .cmdByte d.opRaset :: (wordFrames r0 ++ wordFrames r1 ++ [.cmdByte d.opRamwr]))

/-- The 11 frames of a window request in a state: column is X plus one offset, row is Y plus the other, and in
codes 2 and 3 the two offsets change places (spec/42_addressing_orientation.md R175). -/
def requestFrames (s : State) (x1 y1 x2 y2 : Half) : List FrameEvent :=
  if s.orient.toNat < 2 then
    windowFrames s.desc (x1.toNat + s.offx.toNat) (x2.toNat + s.offx.toNat)
      (y1.toNat + s.offy.toNat) (y2.toNat + s.offy.toNat)
  else
    windowFrames s.desc (x1.toNat + s.offy.toNat) (x2.toNat + s.offy.toNat)
      (y1.toNat + s.offx.toNat) (y2.toNat + s.offx.toNat)

/-- The line events of bits sent from a level `cur` of `MOSI`: clock low, the data line if it changes, clock high
(spec/40_bus_transport.md R130; spec/00_scope.md R12). -/
def roundEvents (cur : Level) : List Level → List Event
  | [] => []
  | b :: bs =>
    .line .clk false :: ((if b = cur then [] else [.line .mosi b]) ++ .line .clk true :: roundEvents b bs)

/-- The number of command frames. -/
def commandFrames (fs : List FrameEvent) : Nat := fs.countP FrameEvent.isCmd

/-- The number of data frames. -/
def dataFrames (fs : List FrameEvent) : Nat := fs.countP FrameEvent.isData

/-- The number of delays. -/
def delayEvents (fs : List FrameEvent) : Nat := fs.countP FrameEvent.isDelay

/-- The trace of `t` is the trace of `s` followed by events that, from the levels of `s`, read as the frames
`fs`. -/
def AppendsFrames (s t : State) (fs : List FrameEvent) : Prop :=
  ∃ es, t.trace = s.trace ++ es ∧ framesFrom s.lines es = fs ∧ s.lines.replay es = t.lines

/-! ## What a request leaves unchanged -/

/-- No request writes the descriptor, the offsets, the buffer or the requests still pending. -/
def ConfigKept (s t : State) : Prop :=
  t.desc = s.desc ∧ t.offx = s.offx ∧ t.offy = s.offy ∧ t.pixbuf = s.pixbuf ∧ t.pending = s.pending

/-- `SHIFT` and `BITCNT` are unchanged. -/
def SerializerKept (s t : State) : Prop := t.shift = s.shift ∧ t.bitcnt = s.bitcnt

/-- `IDX` and `PIDX` are unchanged. -/
def SequencerKept (s t : State) : Prop := t.idx = s.idx ∧ t.pidx = s.pidx

/-- `WIN`, `COL0`, `COL1`, `ROW0`, `ROW1` are unchanged. -/
def WindowKept (s t : State) : Prop :=
  t.win = s.win ∧ t.col0 = s.col0 ∧ t.col1 = s.col1 ∧ t.row0 = s.row0 ∧ t.row1 = s.row1

/-- `VIOL`, `VIOL_REASONS` and `RSTDONE` are unchanged. -/
def GhostFlagsKept (s t : State) : Prop :=
  t.viol = s.viol ∧ t.violReasons = s.violReasons ∧ t.rstdone = s.rstdone

/-- The request ended with `Respond(OK)` (spec/00_scope.md R17). -/
def RespondedOk (t : State) : Prop := t.rsp.status = 0 ∧ t.rsp.cause = 0 ∧ t.busy = false

/-- Exactly the given reasons were added to `VIOL_REASONS`, and `VIOL` is set if there was one (R15). -/
def Violates (s t : State) (rs : List Violation) : Prop :=
  (∀ r, r ∈ t.violReasons ↔ r ∈ s.violReasons ∨ r ∈ rs) ∧ t.viol = (s.viol || !rs.isEmpty)

/-- The invariant of the states between requests. -/
structure Invariant (s : State) : Prop where
  /-- The descriptor is well-formed (R8). -/
  descWf : s.desc.wf = true
  /-- The offset registers hold the descriptor's offsets (spec/10_state.md R22). -/
  offx : s.offx = s.desc.offx
  offy : s.offy = s.desc.offy
  /-- `CS`, `CLK` and, where it exists, `RST` are high; `RST` exists exactly with a reset line (R20, R37). -/
  cs : s.lines.cs = true
  clk : s.lines.clk = true
  rst : s.lines.rst = if s.desc.hasReset then some true else none
  /-- The engine is idle (R31). -/
  idle : s.busy = false
  /-- TRACE accounts for every level: replaying it from the reset levels gives the lines (R12, R26). -/
  traced : (Lines.reset s.desc.hasReset).replay s.trace = s.lines
  /-- Every event of TRACE kept the line discipline (spec/70_reset_and_hazards.md R265). -/
  discipline : disciplined (Lines.reset s.desc.hasReset) s.trace = true
  /-- No frame is open (R104). -/
  closed : (Scan.after ⟨Lines.reset s.desc.hasReset, none⟩ s.trace).frame = none
  /-- `VIOL` is set exactly when a reason is recorded (R28). -/
  viol : s.viol = !s.violReasons.isEmpty
  reasons : reasonsWf s.violReasons = true
  /-- The response is one the spec lists (R32, R96). -/
  rsp : rspLegal s.rsp = true
  /-- Without a violation, a panel with a reset line left `Uninitialized` only after its reset (R29, R158). -/
  resetFirst : s.viol = false → s.desc.hasReset = true → s.phase ≠ .uninitialized → s.rstdone = true
  /-- PIXBUF is in canonical form. -/
  pixbuf : Memory.wf s.pixbuf = true

end Sys2Proof.Machine
end

