-- ==== Sys2Proof/Certificates/Slice0/Obligations.lean ====
section
/-! DEFINITION. The statements for the provers. Each docstring says which rule of spec/ it formalises, or that it is
the model's own choice. No statement rests on a free value or on a value the model chose for a transient register
(log entries 7, 8). -/

open Sys2Proof Sys2Proof.Machine

/-! ## Reset and the port -/

/-- R36: engine reset leaves every register the spec gives a value at that value, whatever the descriptor, and then
the engine waits for a request. The transient registers are unspecified there, and nothing is stated of them. -/
def Obligations.ResetLeavesSpecValues : Prop :=
  ∀ d : Desc,
    (State.resetWith d).desc = d ∧ (State.resetWith d).orient = d.orientDefault ∧
    (State.resetWith d).offx = d.offx ∧ (State.resetWith d).offy = d.offy ∧
    (State.resetWith d).lines.cs = true ∧ (State.resetWith d).lines.clk = true ∧
    (State.resetWith d).lines.mosi = false ∧ (State.resetWith d).lines.dc = true ∧
    (d.hasReset = true → (State.resetWith d).lines.rst = some true) ∧
    (d.hasReset = false → (State.resetWith d).lines.rst = none) ∧
    (State.resetWith d).busy = false ∧ (State.resetWith d).rsp = ⟨0, 0⟩ ∧
    (State.resetWith d).phase = .uninitialized ∧ (State.resetWith d).viol = false ∧
    (State.resetWith d).violReasons = [] ∧ (State.resetWith d).rstdone = false ∧ (State.resetWith d).trace = [] ∧
    (d.wf = true → step (State.resetWith d) = .next (State.resetWith d))

/-- The invariant between requests (R37 and the clauses `Invariant` names) holds after engine reset, for every
well-formed descriptor. -/
def Obligations.ResetMeetsInvariant : Prop :=
  ∀ d : Desc, d.wf = true → Invariant (State.resetWith d)

/-- R251: after engine reset the engine waits: with nothing presented a step changes nothing. -/
def Obligations.IdleEngineWaits : Prop :=
  (∀ d : Desc, d.wf = true → step (State.resetWith d) = .next (State.resetWith d)) ∧
  ∀ s : State, s.desc.wf = true → s.busy = false → s.pending = [] → step s = .next s

/-- R17, R63, R225: when the word at the head of the port decodes to a request, the step is that request's meaning
in the state in which the request has been accepted: `BUSY = 1`, its buffer attached, taken off the port. -/
def Obligations.StepRunsTheDecodedRequest : Prop :=
  ∀ (s : State) (r : Request) (rest : List Request) (i : Instr),
    s.desc.wf = true → s.busy = false → s.pending = r :: rest → decode r.word = .ok i →
    step s = exec i { s with busy := true, pixbuf := Memory.ofBytes 0 r.pix, pending := rest }

/-- R95: a reserved `op` is rejected with BAD_OP, cause 4, and only `RSP` changes (the request leaves the port and
its payload is the one attached); ORIENT codes above 3 and SENDBITS counts 0 and above 16 are rejected. -/
def Obligations.ReservedEncodingsAreRejected : Prop :=
  (∀ (s : State) (r : Request) (rest : List Request),
    s.desc.wf = true → s.busy = false → s.pending = r :: rest →
    ((reqOp r.word).toNat = 0 ∨ 10 ≤ (reqOp r.word).toNat) →
    step s = .next { s with rsp := ⟨1, 4⟩, pixbuf := Memory.ofBytes 0 r.pix, pending := rest }) ∧
  (∀ (s : State) (a : Half), 4 ≤ a.toNat → exec (.orient a) s = .next { s with rsp := ⟨1, 1⟩, busy := false }) ∧
  (∀ (s : State) (a b : Half), (b.toNat = 0 ∨ 17 ≤ b.toNat) →
    exec (.sendbits a b) s = .next { s with rsp := ⟨1, 3⟩, busy := false })

/-- The model's choice (log entry 5): a state with `BUSY = 1` lies inside a request, and no step starts there. -/
def Obligations.BusyPortAcceptsNothing : Prop :=
  ∀ s : State, s.desc.wf = true → s.busy = true → step s = .fault .portBusy

/-- R8, with the storage size of R7 (log entry 13) and the settle delay of R6 and R153 (log entry 23): what makes a descriptor well-formed; the model refuses every
other. -/
def Obligations.IllFormedDescriptorIsRefused : Prop :=
  (∀ d : Desc, d.wf = true ↔
    ∃ rows, InitRow.beforeEnd d.initTable = some rows ∧
      (∀ r ∈ rows, r.parameterCount ≤ 15 ∧ r.params.length = 16) ∧
      (∀ h, d.orientHook = some h →
        (rows.filter (fun r => r.opcode == h)).length ≤ 1 ∧
        ∀ r ∈ rows, r.opcode = h → r.parameterCount = 1) ∧
      100 ≤ d.resetLowMs ∧ 100 ≤ d.resetHighMs ∧ d.settleMs = 100) ∧
  (∀ s : State, s.desc.wf = false →
    step s = .refused .illFormedDescriptor ∧ exec .init s = .refused .illFormedDescriptor)

/-! ## Encodings -/

/-- R90, R92, R107: decoding the word of a request gives the request back, whatever its operands. -/
def Obligations.DecodeOfEncodeIsTheRequest : Prop :=
  ∀ i : Instr, decode (encode i) = .ok i

/-- R94: the operand fields an operation does not use, and `a[15:8]` of SENDBYTE, have no effect; the encoder
puts zeros there, and every word the assembler emits is a word of the encoder. -/
def Obligations.UnusedFieldsAreIgnored : Prop :=
  (∀ (hi v : Byte) (b c d : Half), decode (reqWord 0x02 (hi ++ v) b c d) = .ok (.sendbyte v)) ∧
  (∀ a b c d : Half, decode (reqWord 0x01 a b c d) = .ok (.sendbits a b) ∧
    decode (reqWord 0x04 a b c d) = .ok (.orient a) ∧ decode (reqWord 0x03 a b c d) = .ok .init ∧
    decode (reqWord 0x07 a b c d) = .ok .slpin ∧ decode (reqWord 0x08 a b c d) = .ok .slpout ∧
    decode (reqWord 0x09 a b c d) = .ok .hwreset) ∧
  (∀ (v : Byte) (a b : Half), encode (.sendbyte v) = reqWord 0x02 ((0 : Byte) ++ v) 0 0 0 ∧
    encode (.sendbits a b) = reqWord 0x01 a b 0 0 ∧ encode (.orient a) = reqWord 0x04 a 0 0 0 ∧
    encode .init = reqWord 0x03 0 0 0 0 ∧ encode .slpin = reqWord 0x07 0 0 0 0 ∧
    encode .slpout = reqWord 0x08 0 0 0 0 ∧ encode .hwreset = reqWord 0x09 0 0 0 0) ∧
  (∀ (text : String) (rs : List Request), assemble text = .ok rs → ∀ r ∈ rs, ∃ i, r.word = encode i)

/-- R92, R95: the decoder accepts a word exactly when its `op` is 1 to 9, and what it reads has that opcode. -/
def Obligations.DecoderAcceptsExactlyTheTable : Prop :=
  ∀ w : ReqWord,
    ((∃ i, decode w = .ok i) ↔ 1 ≤ (reqOp w).toNat ∧ (reqOp w).toNat ≤ 9) ∧
    (∀ i, decode w = .ok i → opcodeOf i = reqOp w)

/-- Words of spec/95_test_vectors.md decode to the requests they stand for. -/
def Obligations.SpecWordsDecode : Prop :=
  decode 0x0100A5000800000000 = .ok (.sendbits 0xA5 8) ∧
  decode 0x0200A5000000000000 = .ok (.sendbyte 0xA5) ∧
  decode 0x030000000000000000 = .ok .init ∧
  decode 0x04FFFF000000000000 = .ok (.orient 0xFFFF) ∧
  decode 0x05123400FF12340100 = .ok (.window 0x1234 0x00FF 0x1234 0x0100) ∧
  decode 0x0600000000007F007F = .ok (.flush 0 0 0x7F 0x7F) ∧
  decode 0x07FFFFFFFFFFFFFFFF = .ok .slpin ∧
  decode 0x080000000000000000 = .ok .slpout ∧
  decode 0x090000000000000000 = .ok .hwreset

/-- R102, R103: packing a row and reading it back gives the row and the bytes after it; of the `ctl` byte 0xFF is
END, else the count is `ctl[6:0]` and the delay flag `ctl[7]`, and a count above 15 is ill-formed. That a sentinel
row reads back with its opcode and storage is the model's choice (log entry 24). -/
def Obligations.PackedRowsRoundTrip : Prop :=
  (∀ (r : InitRow) (more : List Byte), r.params.length = 16 → r.parameterCount ≤ 15 →
    (encodeRow r).length = 18 ∧ decodeRow (encodeRow r ++ more) = .ok (r, more)) ∧
  decodeCtl 0xFF = .ok .stop ∧
  (∀ ctl : Byte, ctl.toNat % 128 ≤ 15 →
    decodeCtl ctl = .ok (.count (ctl.toNat % 128) (decide (128 ≤ ctl.toNat)))) ∧
  (∀ ctl : Byte, ctl ≠ 0xFF → 15 < ctl.toNat % 128 → decodeCtl ctl = .error (.badCount ctl))

/-- R101, R102: packing a table of well-formed rows that ends in its first sentinel and reading it back gives the
table; bytes after the sentinel are never read. That the sentinel itself reads back as it was packed, opcode and
storage kept, is the model's choice (log entry 24). -/
def Obligations.PackedTablesRoundTrip : Prop :=
  ∀ (rows : List InitRow) (last : InitRow) (more : List Byte),
    (∀ r ∈ rows, r.params.length = 16 ∧ r.parameterCount ≤ 15 ∧ r.ctl ≠ .stop) →
    last.params.length = 16 → last.ctl = .stop →
    decodeTable (encodeTable (rows ++ [last]) ++ more) = .ok (rows ++ [last])

/-- R107: lines of spec/95_test_vectors.md in the textual syntax stand for the words printed beside them. -/
def Obligations.AssemblerGivesTheSpecWords : Prop :=
  assemble "SENDBITS 0x1A5, 8" = .ok [⟨0x0101A5000800000000, []⟩] ∧
  assemble "ORIENT 2 ; rotate" = .ok [⟨0x040002000000000000, []⟩] ∧
  assemble "FLUSH 5, 7, 5, 7, [12 34]" = .ok [⟨0x060005000700050007, [0x12, 0x34]⟩] ∧
  assemble "POWERON\nWINDOW 10, 0, 5, 0" =
    .ok [⟨0x090000000000000000, []⟩, ⟨0x030000000000000000, []⟩, ⟨0x05000A000000050000, []⟩]

/-! ## Bus Transport -/

/-- R12: `Drive` records a change and nothing else; `Delay` is recorded. -/
def Obligations.DriveRecordsOnlyChanges : Prop :=
  (∀ (s : State) (l : Line) (v : Level), s.lines.get l = some v → s.drive l v = s) ∧
  (∀ (s : State) (l : Line) (v : Level), s.lines.get l = some (!v) →
    s.drive l v = { s with lines := s.lines.set l v, trace := s.trace ++ [.line l v] } ∧
    (s.drive l v).lines.get l = some v) ∧
  (∀ (s : State) (ms : Nat), s.delay ms = { s with trace := s.trace ++ [.delay ms] })

/-- R130: the line events of `SendBits(v, n)` from idle lines, and its postcondition. -/
def Obligations.SendBitsLineTrace : Prop :=
  ∀ (s : State) (v : Half) (n : Nat), 1 ≤ n → n ≤ 16 → s.lines.cs = true → s.lines.clk = true →
    (s.sendBits v n).trace = s.trace ++
      (.line .cs false :: (roundEvents s.lines.mosi (bitsOf v n) ++ [.line .cs true])) ∧
    (s.sendBits v n).lines = { s.lines with cs := true, clk := true, mosi := v.getLsbD 0 }

/-- R138: from any state with `CS = 1`, whatever `CLK` and `MOSI` were, the events of `SendBits(v, n)` read as
exactly one frame, `C` or `D` by the level of `DC`, with the value `v[n-1:0]`. -/
def Obligations.SendBitsIsOneFrame : Prop :=
  ∀ (s : State) (v : Half) (n : Nat), 1 ≤ n → n ≤ 16 → s.lines.cs = true →
    (s.lines.dc = false → AppendsFrames s (s.sendBits v n) [.cmd n (v.toNat % 2 ^ n)]) ∧
    (s.lines.dc = true → AppendsFrames s (s.sendBits v n) [.data n (v.toNat % 2 ^ n)])

/-- R139: the line-level size of `SendBits(v, n)`. -/
def Obligations.SendBitsEventCount : Prop :=
  ∀ (s : State) (v : Half) (n : Nat), 1 ≤ n → n ≤ 16 → s.lines.cs = true → s.lines.clk = true →
    ∃ es, (s.sendBits v n).trace = s.trace ++ es ∧
      es.length = 2 + 2 * n + levelChanges s.lines.mosi (bitsOf v n) ∧
      es.count (.line .cs false) = 1 ∧ es.count (.line .cs true) = 1 ∧
      es.count (.line .clk false) = n ∧ es.count (.line .clk true) = n ∧
      es.count (.line .mosi false) + es.count (.line .mosi true) = levelChanges s.lines.mosi (bitsOf v n)

/-- R140: SENDBITS with a count in 1..16 sends one frame in the mode `DC` has, from a clock at rest with exactly the
line events of R130, and responds OK; of the registers that keep a value between requests it writes no other
than `CS`, `CLK`, `MOSI`, `TRACE` and `RSP`, in every phase. Any other count is rejected. -/
def Obligations.SendbitsSendsOrRejects : Prop :=
  ∀ (a b : Half) (s : State),
    reqOp (encode (.sendbits a b)) = 0x01 ∧
    (1 ≤ b.toNat → b.toNat ≤ 16 → s.lines.cs = true →
      ∃ t, exec (.sendbits a b) s = .next t ∧ RespondedOk t ∧
        AppendsFrames s t [if s.lines.dc then .data b.toNat (a.toNat % 2 ^ b.toNat)
          else .cmd b.toNat (a.toNat % 2 ^ b.toNat)] ∧
        (s.lines.clk = true → t.trace = s.trace ++
          (.line .cs false :: (roundEvents s.lines.mosi (bitsOf a b.toNat) ++ [.line .cs true]))) ∧
        t.lines = { s.lines with cs := true, clk := true, mosi := a.getLsbD 0 } ∧
        ConfigKept s t ∧ t.orient = s.orient ∧ t.phase = s.phase ∧ GhostFlagsKept s t) ∧
    ((b.toNat < 1 ∨ 16 < b.toNat) → exec (.sendbits a b) s = .next { s with rsp := ⟨1, 3⟩, busy := false })

/-- R141: SENDBYTE sends one 8-bit frame in the mode `DC` has, from a clock at rest with exactly the line events of
R130, and responds OK; it writes what SENDBITS writes; `a[15:8]` is ignored. -/
def Obligations.SendbyteSendsOneByte : Prop :=
  ∀ (v : Byte) (s : State), s.lines.cs = true →
    (∀ hi : Byte, decode (reqWord 0x02 (hi ++ v) 0 0 0) = .ok (.sendbyte v)) ∧
    ∃ t, exec (.sendbyte v) s = .next t ∧ RespondedOk t ∧
      AppendsFrames s t [if s.lines.dc then .data 8 v.toNat else .cmd 8 v.toNat] ∧
      (s.lines.clk = true → t.trace = s.trace ++
        (.line .cs false :: (roundEvents s.lines.mosi (bitsOf (v.setWidth 16) 8) ++ [.line .cs true]))) ∧
      t.lines = { s.lines with cs := true, clk := true, mosi := v.getLsbD 0 } ∧
      ConfigKept s t ∧ t.orient = s.orient ∧ t.phase = s.phase ∧ GhostFlagsKept s t

/-! ## Command Sequencer -/

/-- R150, R154, R156, R158: INIT sends the rows before the first sentinel in order, each as its opcode, its
parameters (the orientation byte in the hook's row) and its settle delay; it leaves `PHASE` Awake and records the
violations of R158. -/
def Obligations.InitRunsTheTable : Prop :=
  ∀ (s : State) (rows : List InitRow), s.desc.wf = true → InitRow.beforeEnd s.desc.initTable = some rows →
    s.lines.cs = true →
    reqOp (encode .init) = 0x03 ∧ ∃ t, exec .init s = .next t ∧ RespondedOk t ∧
      AppendsFrames s t (rows.flatMap (rowFrames s.desc s.orient.toNat)) ∧
      t.phase = .awake ∧ t.lines.cs = true ∧ t.lines.rst = s.lines.rst ∧
      t.lines.dc = (if rows = [] then s.lines.dc else true) ∧
      Violates s t
        ((if s.phase ≠ .uninitialized then [.initRepeated] else []) ++
          (if s.desc.hasReset = true ∧ s.rstdone = false then [.initWithoutReset] else [])) ∧
      ConfigKept s t ∧ t.orient = s.orient ∧ t.rstdone = s.rstdone

/-- R157: the size of what INIT emits. -/
def Obligations.InitSize : Prop :=
  ∀ (s : State) (rows : List InitRow), s.desc.wf = true → InitRow.beforeEnd s.desc.initTable = some rows →
    s.lines.cs = true →
    ∃ t fs, exec .init s = .next t ∧ AppendsFrames s t fs ∧
      commandFrames fs = rows.length ∧ dataFrames fs = (rows.map InitRow.parameterCount).sum ∧
      delayEvents fs = (rows.filter InitRow.delayAfter).length ∧
      fs.length = commandFrames fs + dataFrames fs + delayEvents fs ∧
      commandFrames fs + dataFrames fs ≤ 16 * rows.length

/-! ## Addressing and Orientation Mapper -/

/-- R170, R171, R172: ORIENT with a code in 0..3 stores it and sends the memory-access-control opcode and the one
table byte of that code, in every phase; any other code is rejected and only `RSP` changes. -/
def Obligations.OrientStoresAndSends : Prop :=
  ∀ (a : Half) (s : State),
    reqOp (encode (.orient a)) = 0x04 ∧
    (a.toNat ≤ 3 → s.lines.cs = true →
      ∃ t, exec (.orient a) s = .next t ∧ RespondedOk t ∧
        AppendsFrames s t [.cmdByte s.desc.opMadctl, .dataByte (orientByte s.desc a.toNat)] ∧
        t.orient.toNat = a.toNat ∧ t.lines.cs = true ∧ t.lines.dc = true ∧ t.lines.rst = s.lines.rst ∧
        Violates s t (if s.phase ≠ .awake then [.orientNotAwake] else []) ∧
        ConfigKept s t ∧ t.phase = s.phase ∧ t.rstdone = s.rstdone) ∧
    (3 < a.toNat → exec (.orient a) s = .next { s with rsp := ⟨1, 1⟩, busy := false })

/-- R173: the frames of ORIENT depend only on the code and the descriptor, whatever the rest of the two states; so
calling it twice with the same code sends the same frames each time and leaves the code stored. -/
def Obligations.OrientIsIdempotent : Prop :=
  (∀ (a : Half) (s s' t t' : State), a.toNat ≤ 3 → s.lines.cs = true → s'.lines.cs = true → s'.desc = s.desc →
    exec (.orient a) s = .next t → exec (.orient a) s' = .next t' →
    ∃ fs, AppendsFrames s t fs ∧ AppendsFrames s' t' fs ∧ t'.orient = t.orient ∧ t.orient.toNat = a.toNat) ∧
  (∀ (a : Half) (s t u : State), a.toNat ≤ 3 → s.lines.cs = true →
    exec (.orient a) s = .next t → exec (.orient a) t = .next u →
    ∃ fs, AppendsFrames s t fs ∧ AppendsFrames t u fs ∧ u.orient = t.orient ∧ t.orient.toNat = a.toNat)

/-- R174, R175, R176, R180: WINDOW with ordered corners sends exactly 11 frames, columns from X and rows from Y
with the offsets exchanged in codes 2 and 3, and ends in command mode; with any other corners it is rejected. -/
def Obligations.WindowSendsElevenFrames : Prop :=
  ∀ (x1 y1 x2 y2 : Half) (s : State), reqOp (encode (.window x1 y1 x2 y2)) = 0x05 ∧
    ((x2.toNat < x1.toNat ∨ y2.toNat < y1.toNat) →
      exec (.window x1 y1 x2 y2) s = .next { s with rsp := ⟨1, 2⟩, busy := false }) ∧
    (x1.toNat ≤ x2.toNat → y1.toNat ≤ y2.toNat → s.lines.cs = true →
    ∃ t, exec (.window x1 y1 x2 y2) s = .next t ∧ RespondedOk t ∧
      AppendsFrames s t (requestFrames s x1 y1 x2 y2) ∧ (requestFrames s x1 y1 x2 y2).length = 11 ∧
      t.lines.cs = true ∧ t.lines.dc = false ∧ t.lines.rst = s.lines.rst ∧
      Violates s t ((if s.phase ≠ .awake then [.windowNotAwake] else []) ++
        (if rangeViolated s x2 y2 then [.windowRange] else [])) ∧
      ConfigKept s t ∧ t.orient = s.orient ∧ t.phase = s.phase ∧ t.rstdone = s.rstdone)

/-- R177: a transformed end beyond the limits of the axis mode sets WINDOW_RANGE and is still sent, each sum modulo
2^16; with all limits 0xFFFF a WINDOW or a FLUSH adds the reason exactly when a sum overflows 16 bits. -/
def Obligations.WindowRangeIsRecorded : Prop :=
  (∀ (x1 y1 x2 y2 : Half) (s : State), x1.toNat ≤ x2.toNat → y1.toNat ≤ y2.toNat → s.lines.cs = true →
    (if s.orient.toNat < 2 then s.desc.colMax0.toNat < x2.toNat + s.offx.toNat ∨
        s.desc.rowMax0.toNat < y2.toNat + s.offy.toNat
      else s.desc.colMax1.toNat < x2.toNat + s.offy.toNat ∨ s.desc.rowMax1.toNat < y2.toNat + s.offx.toNat) →
    ∃ t, exec (.window x1 y1 x2 y2) s = .next t ∧ RespondedOk t ∧ t.viol = true ∧ .windowRange ∈ t.violReasons ∧
      AppendsFrames s t (requestFrames s x1 y1 x2 y2)) ∧
  (∀ (x1 y1 x2 y2 : Half) (s : State), x1.toNat ≤ x2.toNat → y1.toNat ≤ y2.toNat →
    s.desc.colMax0 = 0xFFFF → s.desc.rowMax0 = 0xFFFF → s.desc.colMax1 = 0xFFFF → s.desc.rowMax1 = 0xFFFF →
    (∃ t, exec (.window x1 y1 x2 y2) s = .next t ∧
      (.windowRange ∈ t.violReasons ↔ .windowRange ∈ s.violReasons ∨
        65536 ≤ x2.toNat + (if s.orient.toNat < 2 then s.offx else s.offy).toNat ∨
        65536 ≤ y2.toNat + (if s.orient.toNat < 2 then s.offy else s.offx).toNat)) ∧
    (payloadCovers (.flush x1 y1 x2 y2) s → ∃ t, exec (.flush x1 y1 x2 y2) s = .next t ∧
      (.windowRange ∈ t.violReasons ↔ .windowRange ∈ s.violReasons ∨
        65536 ≤ x2.toNat + (if s.orient.toNat < 2 then s.offx else s.offy).toNat ∨
        65536 ≤ y2.toNat + (if s.orient.toNat < 2 then s.offy else s.offx).toNat)))

/-- R178, R192: a malformed window is rejected by WINDOW and by FLUSH, unsigned, before anything else: cause 2, and
only `RSP` changes. A window that passes the check (one pixel is legal) is carried to its end: WINDOW always
responds OK, and FLUSH whenever its buffer covers the window. -/
def Obligations.MalformedWindowIsRejected : Prop :=
  ∀ (x1 y1 x2 y2 : Half) (s : State),
    ((x2.toNat < x1.toNat ∨ y2.toNat < y1.toNat) →
      exec (.window x1 y1 x2 y2) s = .next { s with rsp := ⟨1, 2⟩, busy := false } ∧
      exec (.flush x1 y1 x2 y2) s = .next { s with rsp := ⟨1, 2⟩, busy := false }) ∧
    (x1.toNat ≤ x2.toNat → y1.toNat ≤ y2.toNat →
      (∃ t, exec (.window x1 y1 x2 y2) s = .next t ∧ RespondedOk t) ∧
      (payloadCovers (.flush x1 y1 x2 y2) s → ∃ t, exec (.flush x1 y1 x2 y2) s = .next t ∧ RespondedOk t))

/-! ## Blit/Flush Driver and Power State Control -/

/-- R190, R191: FLUSH sends the window's 11 frames, then exactly the `N` bytes of the buffer in order, and ends in
data mode; a malformed window is rejected. -/
def Obligations.FlushStreamsTheBuffer : Prop :=
  ∀ (x1 y1 x2 y2 : Half) (bytes : List Byte) (s : State), reqOp (encode (.flush x1 y1 x2 y2)) = 0x06 ∧
    ((x2.toNat < x1.toNat ∨ y2.toNat < y1.toNat) →
      exec (.flush x1 y1 x2 y2) s = .next { s with rsp := ⟨1, 2⟩, busy := false }) ∧
    (x1.toNat ≤ x2.toNat → y1.toNat ≤ y2.toNat → s.lines.cs = true →
    bytes.length = 2 * (x2.toNat - x1.toNat + 1) * (y2.toNat - y1.toNat + 1) → s.pixbuf.holds bytes →
    ∃ t, exec (.flush x1 y1 x2 y2) s = .next t ∧ RespondedOk t ∧
      AppendsFrames s t (requestFrames s x1 y1 x2 y2 ++ bytes.map FrameEvent.dataByte) ∧
      (requestFrames s x1 y1 x2 y2 ++ bytes.map FrameEvent.dataByte).length = 11 + bytes.length ∧
      t.lines.cs = true ∧ t.lines.dc = true ∧ t.lines.rst = s.lines.rst ∧
      Violates s t ((if s.phase ≠ .awake then [.flushNotAwake] else []) ++
        (if rangeViolated s x2 y2 then [.windowRange] else [])) ∧
      ConfigKept s t ∧ t.orient = s.orient ∧ t.phase = s.phase ∧ t.rstdone = s.rstdone)

/-- R97: through the port, a FLUSH of an ordered window with fewer than `N` bytes is refused, and bytes beyond `N`
are never read: the frames after the window's are the first `N` bytes, and the run is the one with the buffer cut to
`N` bytes, but for the attached buffer itself. -/
def Obligations.FlushReadsExactlyItsBuffer : Prop :=
  ∀ (x1 y1 x2 y2 : Half) (r : Request) (rest : List Request) (s : State),
    s.desc.wf = true → s.busy = false → s.pending = r :: rest → decode r.word = .ok (.flush x1 y1 x2 y2) →
    x1.toNat ≤ x2.toNat → y1.toNat ≤ y2.toNat →
    (r.pix.length < pixelBytes x1 y1 x2 y2 → step s = .refused .pixelBufferTooShort) ∧
    (pixelBytes x1 y1 x2 y2 ≤ r.pix.length →
      ∃ t, step s = .next t ∧
        (s.lines.cs = true → AppendsFrames s t (requestFrames s x1 y1 x2 y2 ++
          (r.pix.take (pixelBytes x1 y1 x2 y2)).map .dataByte)) ∧
        step { s with pending := { r with pix := r.pix.take (pixelBytes x1 y1 x2 y2) } :: rest } =
          .next { t with pixbuf := Memory.ofBytes 0 (r.pix.take (pixelBytes x1 y1 x2 y2)) })

/-- R197: SLPIN sends one command frame in every phase and goes from Awake to Asleep. -/
def Obligations.SlpinSendsOneFrame : Prop :=
  ∀ s : State, s.lines.cs = true →
    reqOp (encode .slpin) = 0x07 ∧ ∃ t, exec .slpin s = .next t ∧ RespondedOk t ∧ AppendsFrames s t [.cmdByte s.desc.opSlpin] ∧
      t.phase = (if s.phase = .awake then .asleep else s.phase) ∧ t.lines.cs = true ∧ t.lines.dc = false ∧
      t.lines.rst = s.lines.rst ∧ Violates s t (if s.phase ≠ .awake then [.slpinNotAwake] else []) ∧
      ConfigKept s t ∧ t.orient = s.orient ∧ t.rstdone = s.rstdone

/-- R198: SLPOUT sends one command frame in every phase and goes from Asleep to Awake. -/
def Obligations.SlpoutSendsOneFrame : Prop :=
  ∀ s : State, s.lines.cs = true →
    reqOp (encode .slpout) = 0x08 ∧ ∃ t, exec .slpout s = .next t ∧ RespondedOk t ∧ AppendsFrames s t [.cmdByte s.desc.opSlpout] ∧
      t.phase = (if s.phase = .asleep then .awake else s.phase) ∧ t.lines.cs = true ∧ t.lines.dc = false ∧
      t.lines.rst = s.lines.rst ∧ Violates s t (if s.phase ≠ .asleep then [.slpoutNotAsleep] else []) ∧
      ConfigKept s t ∧ t.orient = s.orient ∧ t.rstdone = s.rstdone

/-! ## Power-on reset -/

/-- R210, R211: HWRESET drives the reset pulse with its two holds if there is a reset line, nothing otherwise; it
sets `RSTDONE`, returns `PHASE` to Uninitialized and leaves every line at its level. -/
def Obligations.HwresetPulsesTheLine : Prop :=
  ∀ s : State, s.lines.rst = (if s.desc.hasReset then some true else none) →
    reqOp (encode .hwreset) = 0x09 ∧ ∃ t, exec .hwreset s = .next t ∧ RespondedOk t ∧
      t.trace = s.trace ++ (if s.desc.hasReset then
        [.line .rst false, .delay s.desc.resetLowMs, .line .rst true, .delay s.desc.resetHighMs] else []) ∧
      t.lines = s.lines ∧ t.rstdone = true ∧ t.phase = .uninitialized ∧
      Violates s t (if s.phase ≠ .uninitialized then [.hwresetAfterInit] else []) ∧
      ConfigKept s t ∧ t.orient = s.orient

/-- R213: POWERON is HWRESET then INIT: from a state in Uninitialized with idle lines it leads to Awake, adds no
violation, and sends the pulse and then the table. -/
def Obligations.PoweronReachesAwake : Prop :=
  powerOn = [⟨encode .hwreset, []⟩, ⟨encode .init, []⟩] ∧
  ∀ (s : State) (rows : List InitRow), s.desc.wf = true → InitRow.beforeEnd s.desc.initTable = some rows →
    s.phase = .uninitialized → s.lines.cs = true →
    s.lines.rst = (if s.desc.hasReset then some true else none) →
    ∃ t u, exec .hwreset s = .next t ∧ exec .init t = .next u ∧ u.phase = .awake ∧ u.viol = s.viol ∧
      u.violReasons = s.violReasons ∧ RespondedOk u ∧
      AppendsFrames s u ((if s.desc.hasReset then
          [.rst false, .delay s.desc.resetLowMs, .rst true, .delay s.desc.resetHighMs] else []) ++
        rows.flatMap (rowFrames s.desc s.orient.toNat))

/-! ## Errors, phases, whole-machine rules -/

/-- R14, R223, R225: a request whose argument check fails changes `RSP` and `BUSY` and nothing else; the cause is
the one of R221. -/
def Obligations.RejectionChangesOnlyTheResponse : Prop :=
  (Cause.code .orientRange = 1 ∧ Cause.code .windowOrder = 2 ∧ Cause.code .badBitcount = 3 ∧ Cause.code .badOp = 4) ∧
  ∀ (i : Instr) (s : State) (c : Cause), argumentError i = some c →
    exec i s = .next { s with rsp := ⟨1, c.code⟩, busy := false }

/-- R96: a request that completes leaves `BUSY = 0` and OK with cause 0 exactly when its argument check passes,
and INVALID_ARGUMENT otherwise. -/
def Obligations.ResponseMatchesTheArgumentCheck : Prop :=
  ∀ (i : Instr) (s t : State), exec i s = .next t →
    t.busy = false ∧ (argumentError i = none → t.rsp = ⟨0, 0⟩) ∧
    (∀ c, argumentError i = some c → t.rsp.status = 1 ∧ 1 ≤ t.rsp.cause.toNat ∧ t.rsp.cause.toNat ≤ 4)

/-- R231: the phase after every request, in every phase, is the table's; a rejected request leaves it. -/
def Obligations.RequestsFollowThePhaseTable : Prop :=
  ∀ (i : Instr) (s t : State), exec i s = .next t →
    (argumentError i = none → t.phase = nextPhase i s.phase) ∧
    (∀ c, argumentError i = some c → t.phase = s.phase)

/-- R230, R28, R225, R14: an accepted request adds exactly the reasons of R230's table, `VIOL` is set if there is one
and is never cleared; a rejected request changes neither. -/
def Obligations.ViolationsFollowTheTable : Prop :=
  ∀ (i : Instr) (s t : State), exec i s = .next t →
    (argumentError i = none → Violates s t (violationsOf i s)) ∧
    (∀ c, argumentError i = some c → t.viol = s.viol ∧ t.violReasons = s.violReasons)

/-- R8, R97, R231: every request with every operand completes in every state with a well-formed descriptor and,
for a FLUSH of an ordered window, a buffer that covers it. -/
def Obligations.EveryRequestCompletes : Prop :=
  ∀ (i : Instr) (s : State), s.desc.wf = true → payloadCovers i s → ∃ t, exec i s = .next t

/-- R255, R261, R263, R264, R15: a request that keeps the host's duties completes OK and leaves a run without
violation a run without violation. -/
def Obligations.HostDutyKeepsTheRunSafe : Prop :=
  ∀ (i : Instr) (s : State), s.desc.wf = true → HostDutyKept i s →
    ∃ t, exec i s = .next t ∧ RespondedOk t ∧ (SafeRun s → SafeRun t) ∧ t.violReasons = s.violReasons

/-- R21, R22, R60: a step never writes the descriptor or the offsets, and changes `ORIENT` only by an ORIENT
request with a code in 0..3, to that code. -/
def Obligations.OnlyOrientWritesConfiguration : Prop :=
  ∀ s t : State, step s = .next t →
    t.desc = s.desc ∧ t.offx = s.offx ∧ t.offy = s.offy ∧
    (t.orient ≠ s.orient → ∃ r rest a, s.pending = r :: rest ∧ decode r.word = .ok (.orient a) ∧
      a.toNat ≤ 3 ∧ t.orient.toNat = a.toNat)

/-- R11, R60: the engine writes no memory: after every request every byte of the attached buffer reads as before. -/
def Obligations.RequestsWriteNoMemory : Prop :=
  ∀ (i : Instr) (s t : State), exec i s = .next t →
    ∀ k, Memory.read t.pixbuf k = Memory.read s.pixbuf k

/-- The model's choice (log entry 19; the spec leaves these registers unspecified between requests): a request changes
only the transient registers its own rule writes. IDX and PIDX change only in INIT, WIN and the panel bounds only in
WINDOW and FLUSH, PIXCNT only in FLUSH, and HWRESET and a rejected request change none. -/
def Obligations.TransientRegistersStayWithTheirRequests : Prop :=
  ∀ (i : Instr) (s t : State), s.lines.cs = true → exec i s = .next t →
    (i ≠ .init → SequencerKept s t) ∧
    ((∀ x1 y1 x2 y2, i ≠ .window x1 y1 x2 y2 ∧ i ≠ .flush x1 y1 x2 y2) → WindowKept s t) ∧
    ((∀ x1 y1 x2 y2, i ≠ .flush x1 y1 x2 y2) → t.pixcnt = s.pixcnt) ∧
    ((i = .hwreset ∨ (argumentError i).isSome = true) →
      SerializerKept s t ∧ SequencerKept s t ∧ WindowKept s t ∧ t.pixcnt = s.pixcnt)

/-- R76: a step appends its events to `TRACE` and changes none that are there. -/
def Obligations.TraceOnlyGrows : Prop :=
  ∀ s t : State, step s = .next t → ∃ es, t.trace = s.trace ++ es

/-- R233, R199, R20: only INIT and HWRESET record a delay, and only HWRESET moves the reset line (R20's written-by
column, R265). -/
def Obligations.DelaysAndResetLineAreConfined : Prop :=
  ∀ (i : Instr) (s t : State), exec i s = .next t →
    ∃ es, t.trace = s.trace ++ es ∧
      (i ≠ .hwreset → (∀ v, .line .rst v ∉ es) ∧ t.lines.rst = s.lines.rst) ∧
      (i ≠ .hwreset → i ≠ .init → ∀ ms, .delay ms ∉ es)

/-- R271, R270: the delays of INIT sum to 100 ms for every flagged row, those of POWERON to at least 200 ms more, and a
FLUSH makes 8 * (11 + N) clock pulses. -/
def Obligations.MinimumDurations : Prop :=
  (∀ (s t : State) (rows : List InitRow), InitRow.beforeEnd s.desc.initTable = some rows → s.lines.cs = true →
    exec .init s = .next t →
    delayTotal t.trace = delayTotal s.trace + 100 * (rows.filter InitRow.delayAfter).length) ∧
  (∀ (s t u : State) (rows : List InitRow), InitRow.beforeEnd s.desc.initTable = some rows → s.lines.cs = true →
    s.desc.hasReset = true → exec .hwreset s = .next t → exec .init t = .next u →
    delayTotal s.trace + 200 + 100 * (rows.filter InitRow.delayAfter).length ≤ delayTotal u.trace) ∧
  (∀ (x1 y1 x2 y2 : Half) (s t : State), x1.toNat ≤ x2.toNat → y1.toNat ≤ y2.toNat → s.lines.cs = true →
    exec (.flush x1 y1 x2 y2) s = .next t →
    clockPulses t.trace = clockPulses s.trace + 8 * (11 + pixelBytes x1 y1 x2 y2))

/-- R135, R265: from idle lines, every event a request appends keeps the line discipline: `DC` changes only while
`CS = 1`, `MOSI` only inside a frame while `CLK = 0`, a delay and a change of `RST` only between frames; and the
request ends with `CS`, `CLK` and `RST` as they were. -/
def Obligations.RequestsKeepTheLineDiscipline : Prop :=
  ∀ (i : Instr) (s t : State), s.lines.cs = true → s.lines.clk = true →
    s.lines.rst = (if s.desc.hasReset then some true else none) → exec i s = .next t →
    ∃ es, t.trace = s.trace ++ es ∧ disciplined s.lines es = true ∧ s.lines.replay es = t.lines ∧
      t.lines.cs = true ∧ t.lines.clk = true ∧ t.lines.rst = s.lines.rst

/-- The invariant between requests is kept by every step, whatever is presented. -/
def Obligations.EveryStepKeepsTheInvariant : Prop :=
  ∀ s t : State, Invariant s → step s = .next t → Invariant t

/-- R137: between requests the frame trace of `TRACE` grows by the frames of the step's own events. -/
def Obligations.FrameTraceGrowsByTheRequest : Prop :=
  ∀ s t : State, Invariant s → step s = .next t →
    ∃ es, t.trace = s.trace ++ es ∧ framesOf t.desc t.trace = framesOf s.desc s.trace ++ framesFrom s.lines es

/-- R27, R28, R29: what the engine emits, stores and answers never depends on the ghost state: started with another
`PHASE`, `VIOL`, `VIOL_REASONS` and `RSTDONE`, a request ends in a state that differs in these alone. -/
def Obligations.GhostStateNeverShows : Prop :=
  ∀ (i : Instr) (s t : State) (p : Phase) (v : Bool) (rs : List Violation) (d : Bool), exec i s = .next t →
    ∃ u, exec i { s with phase := p, viol := v, violReasons := rs, rstdone := d } = .next u ∧
      u = { t with phase := u.phase, viol := u.viol, violReasons := u.violReasons, rstdone := u.rstdone }

/-- R138: the frame trace of every request is independent of the levels earlier requests left on `CLK` and `MOSI`,
and, for every request that is not SENDBITS or SENDBYTE, of the level left on `DC`. -/
def Obligations.FramesIgnoreLeftoverLevels : Prop :=
  ∀ (i : Instr) (s t u : State) (clk mosi dc : Level), s.lines.cs = true →
    ((∃ a b, i = .sendbits a b) ∨ (∃ v, i = .sendbyte v) → dc = s.lines.dc) →
    exec i s = .next t →
    exec i { s with lines := { s.lines with clk := clk, mosi := mosi, dc := dc } } = .next u →
    ∃ fs, AppendsFrames s t fs ∧
      AppendsFrames { s with lines := { s.lines with clk := clk, mosi := mosi, dc := dc } } u fs

/-- R235: a request to one instance and a step of it have no effect on another. -/
def Obligations.InstancesAreIndependent : Prop :=
  ∀ (sys sys' : Instances) (j k : Nat) (r : Request), j ≠ k →
    (presentAt k r sys)[j]? = sys[j]? ∧ (stepAt k sys = some sys' → sys'[j]? = sys[j]?)
end

