-- ==== Sys2Proof/Laws/State.lean ====
section
/-! SUPPORT. What each shared update of the state writes, one lemma per field. A free value that a `retire` update
writes has no lemma: nothing may rest on it (log entry 8). -/

namespace Sys2Proof.Machine

variable (s : State)

/-! ## drive -/

@[simp] theorem State.drive_desc (l : Line) (v : Level) : (s.drive l v).desc = s.desc := rfl
@[simp] theorem State.drive_pending (l : Line) (v : Level) : (s.drive l v).pending = s.pending := rfl
@[simp] theorem State.drive_pixbuf (l : Line) (v : Level) : (s.drive l v).pixbuf = s.pixbuf := rfl
@[simp] theorem State.drive_orient (l : Line) (v : Level) : (s.drive l v).orient = s.orient := rfl
@[simp] theorem State.drive_offx (l : Line) (v : Level) : (s.drive l v).offx = s.offx := rfl
@[simp] theorem State.drive_offy (l : Line) (v : Level) : (s.drive l v).offy = s.offy := rfl
@[simp] theorem State.drive_lines (l : Line) (v : Level) : (s.drive l v).lines = s.lines.set l v := rfl
@[simp] theorem State.drive_busy (l : Line) (v : Level) : (s.drive l v).busy = s.busy := rfl
@[simp] theorem State.drive_rsp (l : Line) (v : Level) : (s.drive l v).rsp = s.rsp := rfl
@[simp] theorem State.drive_phase (l : Line) (v : Level) : (s.drive l v).phase = s.phase := rfl
@[simp] theorem State.drive_viol (l : Line) (v : Level) : (s.drive l v).viol = s.viol := rfl
@[simp] theorem State.drive_violReasons (l : Line) (v : Level) : (s.drive l v).violReasons = s.violReasons := rfl
@[simp] theorem State.drive_rstdone (l : Line) (v : Level) : (s.drive l v).rstdone = s.rstdone := rfl
@[simp] theorem State.drive_trace (l : Line) (v : Level) : (s.drive l v).trace = s.trace ++ s.lines.driveEvents l v := rfl
@[simp] theorem State.drive_idx (l : Line) (v : Level) : (s.drive l v).idx = s.idx := rfl
@[simp] theorem State.drive_pidx (l : Line) (v : Level) : (s.drive l v).pidx = s.pidx := rfl
@[simp] theorem State.drive_shift (l : Line) (v : Level) : (s.drive l v).shift = s.shift := rfl
@[simp] theorem State.drive_bitcnt (l : Line) (v : Level) : (s.drive l v).bitcnt = s.bitcnt := rfl
@[simp] theorem State.drive_pixcnt (l : Line) (v : Level) : (s.drive l v).pixcnt = s.pixcnt := rfl
@[simp] theorem State.drive_win (l : Line) (v : Level) : (s.drive l v).win = s.win := rfl
@[simp] theorem State.drive_col0 (l : Line) (v : Level) : (s.drive l v).col0 = s.col0 := rfl
@[simp] theorem State.drive_col1 (l : Line) (v : Level) : (s.drive l v).col1 = s.col1 := rfl
@[simp] theorem State.drive_row0 (l : Line) (v : Level) : (s.drive l v).row0 = s.row0 := rfl
@[simp] theorem State.drive_row1 (l : Line) (v : Level) : (s.drive l v).row1 = s.row1 := rfl
@[simp] theorem State.drive_freeCtr (l : Line) (v : Level) : (s.drive l v).freeCtr = s.freeCtr := rfl

/-! ## delay -/

@[simp] theorem State.delay_desc (ms : Nat) : (s.delay ms).desc = s.desc := rfl
@[simp] theorem State.delay_pending (ms : Nat) : (s.delay ms).pending = s.pending := rfl
@[simp] theorem State.delay_pixbuf (ms : Nat) : (s.delay ms).pixbuf = s.pixbuf := rfl
@[simp] theorem State.delay_orient (ms : Nat) : (s.delay ms).orient = s.orient := rfl
@[simp] theorem State.delay_offx (ms : Nat) : (s.delay ms).offx = s.offx := rfl
@[simp] theorem State.delay_offy (ms : Nat) : (s.delay ms).offy = s.offy := rfl
@[simp] theorem State.delay_lines (ms : Nat) : (s.delay ms).lines = s.lines := rfl
@[simp] theorem State.delay_busy (ms : Nat) : (s.delay ms).busy = s.busy := rfl
@[simp] theorem State.delay_rsp (ms : Nat) : (s.delay ms).rsp = s.rsp := rfl
@[simp] theorem State.delay_phase (ms : Nat) : (s.delay ms).phase = s.phase := rfl
@[simp] theorem State.delay_viol (ms : Nat) : (s.delay ms).viol = s.viol := rfl
@[simp] theorem State.delay_violReasons (ms : Nat) : (s.delay ms).violReasons = s.violReasons := rfl
@[simp] theorem State.delay_rstdone (ms : Nat) : (s.delay ms).rstdone = s.rstdone := rfl
@[simp] theorem State.delay_trace (ms : Nat) : (s.delay ms).trace = s.trace ++ [.delay ms] := rfl
@[simp] theorem State.delay_idx (ms : Nat) : (s.delay ms).idx = s.idx := rfl
@[simp] theorem State.delay_pidx (ms : Nat) : (s.delay ms).pidx = s.pidx := rfl
@[simp] theorem State.delay_shift (ms : Nat) : (s.delay ms).shift = s.shift := rfl
@[simp] theorem State.delay_bitcnt (ms : Nat) : (s.delay ms).bitcnt = s.bitcnt := rfl
@[simp] theorem State.delay_pixcnt (ms : Nat) : (s.delay ms).pixcnt = s.pixcnt := rfl
@[simp] theorem State.delay_win (ms : Nat) : (s.delay ms).win = s.win := rfl
@[simp] theorem State.delay_col0 (ms : Nat) : (s.delay ms).col0 = s.col0 := rfl
@[simp] theorem State.delay_col1 (ms : Nat) : (s.delay ms).col1 = s.col1 := rfl
@[simp] theorem State.delay_row0 (ms : Nat) : (s.delay ms).row0 = s.row0 := rfl
@[simp] theorem State.delay_row1 (ms : Nat) : (s.delay ms).row1 = s.row1 := rfl
@[simp] theorem State.delay_freeCtr (ms : Nat) : (s.delay ms).freeCtr = s.freeCtr := rfl

/-! ## loadShift -/

@[simp] theorem State.loadShift_desc (v : Half) (n : Nat) : (s.loadShift v n).desc = s.desc := rfl
@[simp] theorem State.loadShift_pending (v : Half) (n : Nat) : (s.loadShift v n).pending = s.pending := rfl
@[simp] theorem State.loadShift_pixbuf (v : Half) (n : Nat) : (s.loadShift v n).pixbuf = s.pixbuf := rfl
@[simp] theorem State.loadShift_orient (v : Half) (n : Nat) : (s.loadShift v n).orient = s.orient := rfl
@[simp] theorem State.loadShift_offx (v : Half) (n : Nat) : (s.loadShift v n).offx = s.offx := rfl
@[simp] theorem State.loadShift_offy (v : Half) (n : Nat) : (s.loadShift v n).offy = s.offy := rfl
@[simp] theorem State.loadShift_lines (v : Half) (n : Nat) : (s.loadShift v n).lines = s.lines := rfl
@[simp] theorem State.loadShift_busy (v : Half) (n : Nat) : (s.loadShift v n).busy = s.busy := rfl
@[simp] theorem State.loadShift_rsp (v : Half) (n : Nat) : (s.loadShift v n).rsp = s.rsp := rfl
@[simp] theorem State.loadShift_phase (v : Half) (n : Nat) : (s.loadShift v n).phase = s.phase := rfl
@[simp] theorem State.loadShift_viol (v : Half) (n : Nat) : (s.loadShift v n).viol = s.viol := rfl
@[simp] theorem State.loadShift_violReasons (v : Half) (n : Nat) : (s.loadShift v n).violReasons = s.violReasons := rfl
@[simp] theorem State.loadShift_rstdone (v : Half) (n : Nat) : (s.loadShift v n).rstdone = s.rstdone := rfl
@[simp] theorem State.loadShift_trace (v : Half) (n : Nat) : (s.loadShift v n).trace = s.trace := rfl
@[simp] theorem State.loadShift_idx (v : Half) (n : Nat) : (s.loadShift v n).idx = s.idx := rfl
@[simp] theorem State.loadShift_pidx (v : Half) (n : Nat) : (s.loadShift v n).pidx = s.pidx := rfl
@[simp] theorem State.loadShift_shift (v : Half) (n : Nat) : (s.loadShift v n).shift = v := rfl
@[simp] theorem State.loadShift_bitcnt (v : Half) (n : Nat) : (s.loadShift v n).bitcnt = BitVec.ofNat 5 n := rfl
@[simp] theorem State.loadShift_pixcnt (v : Half) (n : Nat) : (s.loadShift v n).pixcnt = s.pixcnt := rfl
@[simp] theorem State.loadShift_win (v : Half) (n : Nat) : (s.loadShift v n).win = s.win := rfl
@[simp] theorem State.loadShift_col0 (v : Half) (n : Nat) : (s.loadShift v n).col0 = s.col0 := rfl
@[simp] theorem State.loadShift_col1 (v : Half) (n : Nat) : (s.loadShift v n).col1 = s.col1 := rfl
@[simp] theorem State.loadShift_row0 (v : Half) (n : Nat) : (s.loadShift v n).row0 = s.row0 := rfl
@[simp] theorem State.loadShift_row1 (v : Half) (n : Nat) : (s.loadShift v n).row1 = s.row1 := rfl
@[simp] theorem State.loadShift_freeCtr (v : Half) (n : Nat) : (s.loadShift v n).freeCtr = s.freeCtr := rfl

/-! ## violateIf -/

@[simp] theorem State.violateIf_desc (c : Bool) (r : Violation) : (s.violateIf c r).desc = s.desc := rfl
@[simp] theorem State.violateIf_pending (c : Bool) (r : Violation) : (s.violateIf c r).pending = s.pending := rfl
@[simp] theorem State.violateIf_pixbuf (c : Bool) (r : Violation) : (s.violateIf c r).pixbuf = s.pixbuf := rfl
@[simp] theorem State.violateIf_orient (c : Bool) (r : Violation) : (s.violateIf c r).orient = s.orient := rfl
@[simp] theorem State.violateIf_offx (c : Bool) (r : Violation) : (s.violateIf c r).offx = s.offx := rfl
@[simp] theorem State.violateIf_offy (c : Bool) (r : Violation) : (s.violateIf c r).offy = s.offy := rfl
@[simp] theorem State.violateIf_lines (c : Bool) (r : Violation) : (s.violateIf c r).lines = s.lines := rfl
@[simp] theorem State.violateIf_busy (c : Bool) (r : Violation) : (s.violateIf c r).busy = s.busy := rfl
@[simp] theorem State.violateIf_rsp (c : Bool) (r : Violation) : (s.violateIf c r).rsp = s.rsp := rfl
@[simp] theorem State.violateIf_phase (c : Bool) (r : Violation) : (s.violateIf c r).phase = s.phase := rfl
@[simp] theorem State.violateIf_viol (c : Bool) (r : Violation) : (s.violateIf c r).viol = (s.viol || c) := rfl
@[simp] theorem State.violateIf_violReasons (c : Bool) (r : Violation) : (s.violateIf c r).violReasons = if c then insertReason r s.violReasons else s.violReasons := rfl
@[simp] theorem State.violateIf_rstdone (c : Bool) (r : Violation) : (s.violateIf c r).rstdone = s.rstdone := rfl
@[simp] theorem State.violateIf_trace (c : Bool) (r : Violation) : (s.violateIf c r).trace = s.trace := rfl
@[simp] theorem State.violateIf_idx (c : Bool) (r : Violation) : (s.violateIf c r).idx = s.idx := rfl
@[simp] theorem State.violateIf_pidx (c : Bool) (r : Violation) : (s.violateIf c r).pidx = s.pidx := rfl
@[simp] theorem State.violateIf_shift (c : Bool) (r : Violation) : (s.violateIf c r).shift = s.shift := rfl
@[simp] theorem State.violateIf_bitcnt (c : Bool) (r : Violation) : (s.violateIf c r).bitcnt = s.bitcnt := rfl
@[simp] theorem State.violateIf_pixcnt (c : Bool) (r : Violation) : (s.violateIf c r).pixcnt = s.pixcnt := rfl
@[simp] theorem State.violateIf_win (c : Bool) (r : Violation) : (s.violateIf c r).win = s.win := rfl
@[simp] theorem State.violateIf_col0 (c : Bool) (r : Violation) : (s.violateIf c r).col0 = s.col0 := rfl
@[simp] theorem State.violateIf_col1 (c : Bool) (r : Violation) : (s.violateIf c r).col1 = s.col1 := rfl
@[simp] theorem State.violateIf_row0 (c : Bool) (r : Violation) : (s.violateIf c r).row0 = s.row0 := rfl
@[simp] theorem State.violateIf_row1 (c : Bool) (r : Violation) : (s.violateIf c r).row1 = s.row1 := rfl
@[simp] theorem State.violateIf_freeCtr (c : Bool) (r : Violation) : (s.violateIf c r).freeCtr = s.freeCtr := rfl

/-! ## retireSerializer -/

@[simp] theorem State.retireSerializer_desc : (s.retireSerializer).desc = s.desc := rfl
@[simp] theorem State.retireSerializer_pending : (s.retireSerializer).pending = s.pending := rfl
@[simp] theorem State.retireSerializer_pixbuf : (s.retireSerializer).pixbuf = s.pixbuf := rfl
@[simp] theorem State.retireSerializer_orient : (s.retireSerializer).orient = s.orient := rfl
@[simp] theorem State.retireSerializer_offx : (s.retireSerializer).offx = s.offx := rfl
@[simp] theorem State.retireSerializer_offy : (s.retireSerializer).offy = s.offy := rfl
@[simp] theorem State.retireSerializer_lines : (s.retireSerializer).lines = s.lines := rfl
@[simp] theorem State.retireSerializer_busy : (s.retireSerializer).busy = s.busy := rfl
@[simp] theorem State.retireSerializer_rsp : (s.retireSerializer).rsp = s.rsp := rfl
@[simp] theorem State.retireSerializer_phase : (s.retireSerializer).phase = s.phase := rfl
@[simp] theorem State.retireSerializer_viol : (s.retireSerializer).viol = s.viol := rfl
@[simp] theorem State.retireSerializer_violReasons : (s.retireSerializer).violReasons = s.violReasons := rfl
@[simp] theorem State.retireSerializer_rstdone : (s.retireSerializer).rstdone = s.rstdone := rfl
@[simp] theorem State.retireSerializer_trace : (s.retireSerializer).trace = s.trace := rfl
@[simp] theorem State.retireSerializer_idx : (s.retireSerializer).idx = s.idx := rfl
@[simp] theorem State.retireSerializer_pidx : (s.retireSerializer).pidx = s.pidx := rfl
@[simp] theorem State.retireSerializer_pixcnt : (s.retireSerializer).pixcnt = s.pixcnt := rfl
@[simp] theorem State.retireSerializer_win : (s.retireSerializer).win = s.win := rfl
@[simp] theorem State.retireSerializer_col0 : (s.retireSerializer).col0 = s.col0 := rfl
@[simp] theorem State.retireSerializer_col1 : (s.retireSerializer).col1 = s.col1 := rfl
@[simp] theorem State.retireSerializer_row0 : (s.retireSerializer).row0 = s.row0 := rfl
@[simp] theorem State.retireSerializer_row1 : (s.retireSerializer).row1 = s.row1 := rfl
@[simp] theorem State.retireSerializer_freeCtr : (s.retireSerializer).freeCtr = s.freeCtr := rfl

/-! ## retireSequencer -/

@[simp] theorem State.retireSequencer_desc : (s.retireSequencer).desc = s.desc := rfl
@[simp] theorem State.retireSequencer_pending : (s.retireSequencer).pending = s.pending := rfl
@[simp] theorem State.retireSequencer_pixbuf : (s.retireSequencer).pixbuf = s.pixbuf := rfl
@[simp] theorem State.retireSequencer_orient : (s.retireSequencer).orient = s.orient := rfl
@[simp] theorem State.retireSequencer_offx : (s.retireSequencer).offx = s.offx := rfl
@[simp] theorem State.retireSequencer_offy : (s.retireSequencer).offy = s.offy := rfl
@[simp] theorem State.retireSequencer_lines : (s.retireSequencer).lines = s.lines := rfl
@[simp] theorem State.retireSequencer_busy : (s.retireSequencer).busy = s.busy := rfl
@[simp] theorem State.retireSequencer_rsp : (s.retireSequencer).rsp = s.rsp := rfl
@[simp] theorem State.retireSequencer_phase : (s.retireSequencer).phase = s.phase := rfl
@[simp] theorem State.retireSequencer_viol : (s.retireSequencer).viol = s.viol := rfl
@[simp] theorem State.retireSequencer_violReasons : (s.retireSequencer).violReasons = s.violReasons := rfl
@[simp] theorem State.retireSequencer_rstdone : (s.retireSequencer).rstdone = s.rstdone := rfl
@[simp] theorem State.retireSequencer_trace : (s.retireSequencer).trace = s.trace := rfl
@[simp] theorem State.retireSequencer_shift : (s.retireSequencer).shift = s.shift := rfl
@[simp] theorem State.retireSequencer_bitcnt : (s.retireSequencer).bitcnt = s.bitcnt := rfl
@[simp] theorem State.retireSequencer_pixcnt : (s.retireSequencer).pixcnt = s.pixcnt := rfl
@[simp] theorem State.retireSequencer_win : (s.retireSequencer).win = s.win := rfl
@[simp] theorem State.retireSequencer_col0 : (s.retireSequencer).col0 = s.col0 := rfl
@[simp] theorem State.retireSequencer_col1 : (s.retireSequencer).col1 = s.col1 := rfl
@[simp] theorem State.retireSequencer_row0 : (s.retireSequencer).row0 = s.row0 := rfl
@[simp] theorem State.retireSequencer_row1 : (s.retireSequencer).row1 = s.row1 := rfl
@[simp] theorem State.retireSequencer_freeCtr : (s.retireSequencer).freeCtr = s.freeCtr := rfl

/-! ## retireWindow -/

@[simp] theorem State.retireWindow_desc : (s.retireWindow).desc = s.desc := rfl
@[simp] theorem State.retireWindow_pending : (s.retireWindow).pending = s.pending := rfl
@[simp] theorem State.retireWindow_pixbuf : (s.retireWindow).pixbuf = s.pixbuf := rfl
@[simp] theorem State.retireWindow_orient : (s.retireWindow).orient = s.orient := rfl
@[simp] theorem State.retireWindow_offx : (s.retireWindow).offx = s.offx := rfl
@[simp] theorem State.retireWindow_offy : (s.retireWindow).offy = s.offy := rfl
@[simp] theorem State.retireWindow_lines : (s.retireWindow).lines = s.lines := rfl
@[simp] theorem State.retireWindow_busy : (s.retireWindow).busy = s.busy := rfl
@[simp] theorem State.retireWindow_rsp : (s.retireWindow).rsp = s.rsp := rfl
@[simp] theorem State.retireWindow_phase : (s.retireWindow).phase = s.phase := rfl
@[simp] theorem State.retireWindow_viol : (s.retireWindow).viol = s.viol := rfl
@[simp] theorem State.retireWindow_violReasons : (s.retireWindow).violReasons = s.violReasons := rfl
@[simp] theorem State.retireWindow_rstdone : (s.retireWindow).rstdone = s.rstdone := rfl
@[simp] theorem State.retireWindow_trace : (s.retireWindow).trace = s.trace := rfl
@[simp] theorem State.retireWindow_idx : (s.retireWindow).idx = s.idx := rfl
@[simp] theorem State.retireWindow_pidx : (s.retireWindow).pidx = s.pidx := rfl
@[simp] theorem State.retireWindow_shift : (s.retireWindow).shift = s.shift := rfl
@[simp] theorem State.retireWindow_bitcnt : (s.retireWindow).bitcnt = s.bitcnt := rfl
@[simp] theorem State.retireWindow_pixcnt : (s.retireWindow).pixcnt = s.pixcnt := rfl
@[simp] theorem State.retireWindow_freeCtr : (s.retireWindow).freeCtr = s.freeCtr := rfl

/-! ## retirePixcnt -/

@[simp] theorem State.retirePixcnt_desc : (s.retirePixcnt).desc = s.desc := rfl
@[simp] theorem State.retirePixcnt_pending : (s.retirePixcnt).pending = s.pending := rfl
@[simp] theorem State.retirePixcnt_pixbuf : (s.retirePixcnt).pixbuf = s.pixbuf := rfl
@[simp] theorem State.retirePixcnt_orient : (s.retirePixcnt).orient = s.orient := rfl
@[simp] theorem State.retirePixcnt_offx : (s.retirePixcnt).offx = s.offx := rfl
@[simp] theorem State.retirePixcnt_offy : (s.retirePixcnt).offy = s.offy := rfl
@[simp] theorem State.retirePixcnt_lines : (s.retirePixcnt).lines = s.lines := rfl
@[simp] theorem State.retirePixcnt_busy : (s.retirePixcnt).busy = s.busy := rfl
@[simp] theorem State.retirePixcnt_rsp : (s.retirePixcnt).rsp = s.rsp := rfl
@[simp] theorem State.retirePixcnt_phase : (s.retirePixcnt).phase = s.phase := rfl
@[simp] theorem State.retirePixcnt_viol : (s.retirePixcnt).viol = s.viol := rfl
@[simp] theorem State.retirePixcnt_violReasons : (s.retirePixcnt).violReasons = s.violReasons := rfl
@[simp] theorem State.retirePixcnt_rstdone : (s.retirePixcnt).rstdone = s.rstdone := rfl
@[simp] theorem State.retirePixcnt_trace : (s.retirePixcnt).trace = s.trace := rfl
@[simp] theorem State.retirePixcnt_idx : (s.retirePixcnt).idx = s.idx := rfl
@[simp] theorem State.retirePixcnt_pidx : (s.retirePixcnt).pidx = s.pidx := rfl
@[simp] theorem State.retirePixcnt_shift : (s.retirePixcnt).shift = s.shift := rfl
@[simp] theorem State.retirePixcnt_bitcnt : (s.retirePixcnt).bitcnt = s.bitcnt := rfl
@[simp] theorem State.retirePixcnt_win : (s.retirePixcnt).win = s.win := rfl
@[simp] theorem State.retirePixcnt_col0 : (s.retirePixcnt).col0 = s.col0 := rfl
@[simp] theorem State.retirePixcnt_col1 : (s.retirePixcnt).col1 = s.col1 := rfl
@[simp] theorem State.retirePixcnt_row0 : (s.retirePixcnt).row0 = s.row0 := rfl
@[simp] theorem State.retirePixcnt_row1 : (s.retirePixcnt).row1 = s.row1 := rfl
@[simp] theorem State.retirePixcnt_freeCtr : (s.retirePixcnt).freeCtr = s.freeCtr := rfl

/-! ## respondOk -/

@[simp] theorem State.respondOk_desc : (s.respondOk).desc = s.desc := rfl
@[simp] theorem State.respondOk_pending : (s.respondOk).pending = s.pending := rfl
@[simp] theorem State.respondOk_pixbuf : (s.respondOk).pixbuf = s.pixbuf := rfl
@[simp] theorem State.respondOk_orient : (s.respondOk).orient = s.orient := rfl
@[simp] theorem State.respondOk_offx : (s.respondOk).offx = s.offx := rfl
@[simp] theorem State.respondOk_offy : (s.respondOk).offy = s.offy := rfl
@[simp] theorem State.respondOk_lines : (s.respondOk).lines = s.lines := rfl
@[simp] theorem State.respondOk_busy : (s.respondOk).busy = false := rfl
@[simp] theorem State.respondOk_rsp : (s.respondOk).rsp = ⟨statusOk, 0⟩ := rfl
@[simp] theorem State.respondOk_phase : (s.respondOk).phase = s.phase := rfl
@[simp] theorem State.respondOk_viol : (s.respondOk).viol = s.viol := rfl
@[simp] theorem State.respondOk_violReasons : (s.respondOk).violReasons = s.violReasons := rfl
@[simp] theorem State.respondOk_rstdone : (s.respondOk).rstdone = s.rstdone := rfl
@[simp] theorem State.respondOk_trace : (s.respondOk).trace = s.trace := rfl
@[simp] theorem State.respondOk_idx : (s.respondOk).idx = s.idx := rfl
@[simp] theorem State.respondOk_pidx : (s.respondOk).pidx = s.pidx := rfl
@[simp] theorem State.respondOk_shift : (s.respondOk).shift = s.shift := rfl
@[simp] theorem State.respondOk_bitcnt : (s.respondOk).bitcnt = s.bitcnt := rfl
@[simp] theorem State.respondOk_pixcnt : (s.respondOk).pixcnt = s.pixcnt := rfl
@[simp] theorem State.respondOk_win : (s.respondOk).win = s.win := rfl
@[simp] theorem State.respondOk_col0 : (s.respondOk).col0 = s.col0 := rfl
@[simp] theorem State.respondOk_col1 : (s.respondOk).col1 = s.col1 := rfl
@[simp] theorem State.respondOk_row0 : (s.respondOk).row0 = s.row0 := rfl
@[simp] theorem State.respondOk_row1 : (s.respondOk).row1 = s.row1 := rfl
@[simp] theorem State.respondOk_freeCtr : (s.respondOk).freeCtr = s.freeCtr + 1 := rfl

/-! ## raise -/

@[simp] theorem State.raise_desc (c : Cause) : (s.raise c).desc = s.desc := rfl
@[simp] theorem State.raise_pending (c : Cause) : (s.raise c).pending = s.pending := rfl
@[simp] theorem State.raise_pixbuf (c : Cause) : (s.raise c).pixbuf = s.pixbuf := rfl
@[simp] theorem State.raise_orient (c : Cause) : (s.raise c).orient = s.orient := rfl
@[simp] theorem State.raise_offx (c : Cause) : (s.raise c).offx = s.offx := rfl
@[simp] theorem State.raise_offy (c : Cause) : (s.raise c).offy = s.offy := rfl
@[simp] theorem State.raise_lines (c : Cause) : (s.raise c).lines = s.lines := rfl
@[simp] theorem State.raise_busy (c : Cause) : (s.raise c).busy = false := rfl
@[simp] theorem State.raise_rsp (c : Cause) : (s.raise c).rsp = ⟨statusInvalid, c.code⟩ := rfl
@[simp] theorem State.raise_phase (c : Cause) : (s.raise c).phase = s.phase := rfl
@[simp] theorem State.raise_viol (c : Cause) : (s.raise c).viol = s.viol := rfl
@[simp] theorem State.raise_violReasons (c : Cause) : (s.raise c).violReasons = s.violReasons := rfl
@[simp] theorem State.raise_rstdone (c : Cause) : (s.raise c).rstdone = s.rstdone := rfl
@[simp] theorem State.raise_trace (c : Cause) : (s.raise c).trace = s.trace := rfl
@[simp] theorem State.raise_idx (c : Cause) : (s.raise c).idx = s.idx := rfl
@[simp] theorem State.raise_pidx (c : Cause) : (s.raise c).pidx = s.pidx := rfl
@[simp] theorem State.raise_shift (c : Cause) : (s.raise c).shift = s.shift := rfl
@[simp] theorem State.raise_bitcnt (c : Cause) : (s.raise c).bitcnt = s.bitcnt := rfl
@[simp] theorem State.raise_pixcnt (c : Cause) : (s.raise c).pixcnt = s.pixcnt := rfl
@[simp] theorem State.raise_win (c : Cause) : (s.raise c).win = s.win := rfl
@[simp] theorem State.raise_col0 (c : Cause) : (s.raise c).col0 = s.col0 := rfl
@[simp] theorem State.raise_col1 (c : Cause) : (s.raise c).col1 = s.col1 := rfl
@[simp] theorem State.raise_row0 (c : Cause) : (s.raise c).row0 = s.row0 := rfl
@[simp] theorem State.raise_row1 (c : Cause) : (s.raise c).row1 = s.row1 := rfl
@[simp] theorem State.raise_freeCtr (c : Cause) : (s.raise c).freeCtr = s.freeCtr := rfl

/-! ## accept -/

@[simp] theorem State.accept_desc (pix : List Byte) : (s.accept pix).desc = s.desc := rfl
@[simp] theorem State.accept_pending (pix : List Byte) : (s.accept pix).pending = s.pending := rfl
@[simp] theorem State.accept_pixbuf (pix : List Byte) : (s.accept pix).pixbuf = Memory.ofBytes 0 pix := rfl
@[simp] theorem State.accept_orient (pix : List Byte) : (s.accept pix).orient = s.orient := rfl
@[simp] theorem State.accept_offx (pix : List Byte) : (s.accept pix).offx = s.offx := rfl
@[simp] theorem State.accept_offy (pix : List Byte) : (s.accept pix).offy = s.offy := rfl
@[simp] theorem State.accept_lines (pix : List Byte) : (s.accept pix).lines = s.lines := rfl
@[simp] theorem State.accept_busy (pix : List Byte) : (s.accept pix).busy = true := rfl
@[simp] theorem State.accept_rsp (pix : List Byte) : (s.accept pix).rsp = s.rsp := rfl
@[simp] theorem State.accept_phase (pix : List Byte) : (s.accept pix).phase = s.phase := rfl
@[simp] theorem State.accept_viol (pix : List Byte) : (s.accept pix).viol = s.viol := rfl
@[simp] theorem State.accept_violReasons (pix : List Byte) : (s.accept pix).violReasons = s.violReasons := rfl
@[simp] theorem State.accept_rstdone (pix : List Byte) : (s.accept pix).rstdone = s.rstdone := rfl
@[simp] theorem State.accept_trace (pix : List Byte) : (s.accept pix).trace = s.trace := rfl
@[simp] theorem State.accept_idx (pix : List Byte) : (s.accept pix).idx = s.idx := rfl
@[simp] theorem State.accept_pidx (pix : List Byte) : (s.accept pix).pidx = s.pidx := rfl
@[simp] theorem State.accept_shift (pix : List Byte) : (s.accept pix).shift = s.shift := rfl
@[simp] theorem State.accept_bitcnt (pix : List Byte) : (s.accept pix).bitcnt = s.bitcnt := rfl
@[simp] theorem State.accept_pixcnt (pix : List Byte) : (s.accept pix).pixcnt = s.pixcnt := rfl
@[simp] theorem State.accept_win (pix : List Byte) : (s.accept pix).win = s.win := rfl
@[simp] theorem State.accept_col0 (pix : List Byte) : (s.accept pix).col0 = s.col0 := rfl
@[simp] theorem State.accept_col1 (pix : List Byte) : (s.accept pix).col1 = s.col1 := rfl
@[simp] theorem State.accept_row0 (pix : List Byte) : (s.accept pix).row0 = s.row0 := rfl
@[simp] theorem State.accept_row1 (pix : List Byte) : (s.accept pix).row1 = s.row1 := rfl
@[simp] theorem State.accept_freeCtr (pix : List Byte) : (s.accept pix).freeCtr = s.freeCtr := rfl

end Sys2Proof.Machine
end

