-- ==== Sys2Proof/Laws/Wave.lean ====
section
/-! SUPPORT. Line-level traces: how levels, frames and the line discipline compose, and what one drive adds. -/

namespace Sys2Proof.Machine

/-! ## Levels -/

theorem Lines.set_of_get {ls : Lines} {l : Line} {v : Level} (h : ls.get l = some v) : ls.set l v = ls := by
  cases ls; cases l <;> simp_all [Lines.get, Lines.set]

theorem Lines.set_of_absent {ls : Lines} {l : Line} {v : Level} (h : ls.get l = none) : ls.set l v = ls := by
  cases ls; cases l <;> simp_all [Lines.get, Lines.set]

theorem Lines.replay_append (ls : Lines) (es fs : List Event) :
    ls.replay (es ++ fs) = (ls.replay es).replay fs := by
  induction es generalizing ls with
  | nil => rfl
  | cons e es ih => cases e <;> exact ih _

/-- What a drive records replays to the level it sets. -/
theorem Lines.replay_driveEvents (ls : Lines) (l : Line) (v : Level) :
    ls.replay (ls.driveEvents l v) = ls.set l v := by
  unfold Lines.driveEvents
  split
  · next h => exact (Lines.set_of_absent h).symm
  · next cur h =>
    split
    · next hv => subst hv; exact (Lines.set_of_get h).symm
    · rfl

/-- Events that move no reset line leave its level. -/
theorem Lines.replay_rst (ls : Lines) (es : List Event) (h : ∀ v, Event.line .rst v ∉ es) :
    (ls.replay es).rst = ls.rst := by
  induction es generalizing ls with
  | nil => rfl
  | cons e es ih =>
    have ht : ∀ v, Event.line .rst v ∉ es := fun v hv => h v (by simp [hv])
    cases e with
    | delay ms => exact ih ls ht
    | line l v =>
      rw [Lines.replay, ih _ ht]
      cases l <;> first | rfl | exact absurd (h v) (by simp)

/-! ## Scans -/

theorem Scan.after_append (c : Scan) (es fs : List Event) : c.after (es ++ fs) = (c.after es).after fs := by
  induction es generalizing c with
  | nil => rfl
  | cons e es ih => exact ih _

theorem Scan.frames_append (c : Scan) (es fs : List Event) :
    c.frames (es ++ fs) = c.frames es ++ (c.after es).frames fs := by
  induction es generalizing c with
  | nil => rfl
  | cons e es ih => simp [Scan.frames, Scan.after, ih]

theorem Scan.next_lines (c : Scan) (e : Event) : (c.next e).lines = c.lines.replay [e] := by
  cases e with
  | delay ms => rfl
  | line l v => cases l <;> cases v <;> rfl

theorem Lines.replay_cons (ls : Lines) (e : Event) (es : List Event) :
    ls.replay (e :: es) = (ls.replay [e]).replay es := by
  cases e <;> rfl

/-- A scan tracks the levels of the lines. -/
theorem Scan.after_lines (c : Scan) (es : List Event) : (c.after es).lines = c.lines.replay es := by
  induction es generalizing c with
  | nil => rfl
  | cons e es ih => rw [Lines.replay_cons, ← Scan.next_lines]; exact ih _

theorem disciplined_append (ls : Lines) (es fs : List Event) :
    disciplined ls (es ++ fs) = (disciplined ls es && disciplined (ls.replay es) fs) := by
  induction es generalizing ls with
  | nil => simp [disciplined, Lines.replay]
  | cons e es ih =>
    rw [List.cons_append, disciplined, disciplined, ih, Lines.replay_cons ls e es, Bool.and_assoc]

theorem delayTotal_append (es fs : List Event) : delayTotal (es ++ fs) = delayTotal es + delayTotal fs := by
  induction es with
  | nil => simp [delayTotal]
  | cons e es ih => cases e <;> simp [delayTotal, ih, Nat.add_assoc]

theorem clockPulses_append (es fs : List Event) : clockPulses (es ++ fs) = clockPulses es + clockPulses fs := by
  induction es with
  | nil => simp [clockPulses]
  | cons e es ih =>
    cases e with
    | delay ms => simp [clockPulses, ih]
    | line l v => cases l <;> cases v <;> (simp [clockPulses, ih]; try omega)

/-- The clock pulses inside frames: the bits of each frame. -/
def framePulses : List FrameEvent → Nat
  | [] => 0
  | .cmd n _ :: fs => n + framePulses fs
  | .data n _ :: fs => n + framePulses fs
  | .rst _ :: fs => framePulses fs
  | .delay _ :: fs => framePulses fs

/-- The milliseconds the delays among frame events take at least. -/
def frameDelays : List FrameEvent → Nat
  | [] => 0
  | .delay ms :: fs => ms + frameDelays fs
  | .cmd _ _ :: fs => frameDelays fs
  | .data _ _ :: fs => frameDelays fs
  | .rst _ :: fs => frameDelays fs

theorem framePulses_append (fs gs : List FrameEvent) :
    framePulses (fs ++ gs) = framePulses fs + framePulses gs := by
  induction fs with
  | nil => simp [framePulses]
  | cons f fs ih => cases f <;> simp [framePulses, ih, Nat.add_assoc]

theorem frameDelays_append (fs gs : List FrameEvent) :
    frameDelays (fs ++ gs) = frameDelays fs + frameDelays gs := by
  induction fs with
  | nil => simp [frameDelays]
  | cons f fs ih => cases f <;> simp [frameDelays, ih, Nat.add_assoc]

/-! ## Waves

A wave is a trace that starts and ends between frames: its levels, its frames, and the discipline it keeps. -/

/-- From levels `ls` with no frame open, the events `es` lead to `ls'`, close every frame they open, read as the
frames `fs`, and keep the discipline if the clock idles high. -/
structure Wave (ls : Lines) (es : List Event) (fs : List FrameEvent) (ls' : Lines) : Prop where
  lines : ls.replay es = ls'
  closed : (Scan.after ⟨ls, none⟩ es).frame = none
  frames : framesFrom ls es = fs
  disc : ls.clk = true → disciplined ls es = true
  clk : ls.clk = true → ls'.clk = true
  pulses : clockPulses es = framePulses fs
  delays : delayTotal es = frameDelays fs

theorem Wave.nil (ls : Lines) : Wave ls [] [] ls := ⟨rfl, rfl, rfl, fun _ => rfl, id, rfl, rfl⟩

theorem Wave.after {ls ls' : Lines} {es : List Event} {fs : List FrameEvent} (h : Wave ls es fs ls') :
    Scan.after ⟨ls, none⟩ es = ⟨ls', none⟩ := by
  have hl := Scan.after_lines ⟨ls, none⟩ es
  have hc := h.closed
  rw [← h.lines]
  cases hx : Scan.after ⟨ls, none⟩ es
  simp_all

theorem Wave.append {ls ls' ls'' : Lines} {es gs : List Event} {fs hs : List FrameEvent}
    (h : Wave ls es fs ls') (k : Wave ls' gs hs ls'') : Wave ls (es ++ gs) (fs ++ hs) ls'' where
  lines := by rw [Lines.replay_append, h.lines, k.lines]
  closed := by rw [Scan.after_append, h.after]; exact k.closed
  frames := by
    rw [framesFrom, Scan.frames_append, h.after]
    exact congrArg₂ (· ++ ·) h.frames k.frames
  disc := fun hc => by rw [disciplined_append, h.lines, h.disc hc, k.disc (h.clk hc), Bool.and_self]
  clk := fun hc => k.clk (h.clk hc)
  pulses := by rw [clockPulses_append, framePulses_append, h.pulses, k.pulses]
  delays := by rw [delayTotal_append, frameDelays_append, h.delays, k.delays]

/-- A delay while `CS = 1`. -/
theorem Wave.delay {ls : Lines} (h : ls.cs = true) (ms : Nat) : Wave ls [.delay ms] [.delay ms] ls :=
  ⟨rfl, rfl, rfl, fun _ => by simp [disciplined, eventDisciplined, h], id, rfl, rfl⟩

/-- Driving `DC` while `CS = 1`. -/
theorem Wave.driveDc {ls : Lines} (h : ls.cs = true) (v : Level) :
    Wave ls (ls.driveEvents .dc v) [] { ls with dc := v } := by
  refine ⟨Lines.replay_driveEvents _ _ _, ?_, ?_, ?_, id, ?_, ?_⟩ <;>
    obtain ⟨cs, clk, mosi, dc, rst⟩ := ls <;> cases dc <;> cases v <;>
    simp_all [Lines.driveEvents, Lines.get, Scan.after, Scan.next, framesFrom, Scan.frames, Scan.emit,
      disciplined, eventDisciplined, clockPulses, framePulses, delayTotal, frameDelays]

end Sys2Proof.Machine
end

