-- ==== Sys2Proof/Laws/Transport.lean ====
section
/-! SUPPORT. The Bus Transport primitives: what one frame puts on the lines (spec/40_bus_transport.md R130, R138,
R139), and the predicate `Emits` in which every later request is described. -/

namespace Sys2Proof.Machine

/-! ## The events of one frame -/

/-- The events of one bit from levels `ls`. -/
def bitEvents (ls : Lines) (b : Level) : List Event :=
  ls.driveEvents .clk false ++ ((ls.set .clk false).driveEvents .mosi b ++
    ((ls.set .clk false).set .mosi b).driveEvents .clk true)

/-- The levels after one bit. -/
def bitLines (ls : Lines) (b : Level) : Lines := { ls with clk := true, mosi := b }

/-- The events of the bits `n - 1` down to 0 of `v`. -/
def shiftEvents (ls : Lines) (v : Half) : Nat → List Event
  | 0 => []
  | i + 1 => bitEvents ls (v.getLsbD i) ++ shiftEvents (bitLines ls (v.getLsbD i)) v i

/-- The levels after those bits. -/
def shiftLines (ls : Lines) (v : Half) : Nat → Lines
  | 0 => ls
  | i + 1 => shiftLines (bitLines ls (v.getLsbD i)) v i

/-- The events of the whole frame. -/
def frameEvents (ls : Lines) (v : Half) (n : Nat) : List Event :=
  ls.driveEvents .cs false ++ (shiftEvents (ls.set .cs false) v n ++
    (shiftLines (ls.set .cs false) v n).driveEvents .cs true)

/-- The levels after the whole frame. -/
def frameLines (ls : Lines) (v : Half) : Lines := { ls with cs := true, clk := true, mosi := v.getLsbD 0 }

/-- The frame a transfer reads as: tagged by the level of `DC` (R104, R137). -/
def frameOf (dc : Level) (v : Half) (n : Nat) : FrameEvent :=
  if dc then .data n (v.toNat % 2 ^ n) else .cmd n (v.toNat % 2 ^ n)

theorem shiftLines_succ (ls : Lines) (v : Half) (i : Nat) :
    shiftLines ls v (i + 1) = { ls with clk := true, mosi := v.getLsbD 0 } := by
  induction i generalizing ls with
  | zero => rfl
  | succ i ih => exact ih _

/-- One bit inside an open frame: the scan appends it, emits nothing. -/
theorem bit_scan (ls : Lines) (b m : Level) (bits : List Level) :
    Scan.after ⟨ls, some (m, bits)⟩ (bitEvents ls b) = ⟨bitLines ls b, some (m, bits ++ [b])⟩ ∧
      Scan.frames ⟨ls, some (m, bits)⟩ (bitEvents ls b) = [] := by
  obtain ⟨cs, clk, mosi, dc, rst⟩ := ls
  cases clk <;> cases mosi <;> cases b <;> exact ⟨rfl, rfl⟩

theorem bit_replay (ls : Lines) (b : Level) : ls.replay (bitEvents ls b) = bitLines ls b := by
  simp only [bitEvents, Lines.replay_append, Lines.replay_driveEvents]; rfl

/-- One bit keeps the line discipline inside a frame. -/
theorem bit_disciplined {ls : Lines} (b : Level) (h : ls.cs = false) :
    disciplined ls (bitEvents ls b) = true := by
  obtain ⟨cs, clk, mosi, dc, rst⟩ := ls
  subst h
  cases clk <;> cases mosi <;> cases b <;> rfl

theorem shift_scan (ls : Lines) (v : Half) (n : Nat) (m : Level) (bits : List Level) :
    Scan.after ⟨ls, some (m, bits)⟩ (shiftEvents ls v n) =
        ⟨shiftLines ls v n, some (m, bits ++ bitsOf v n)⟩ ∧
      Scan.frames ⟨ls, some (m, bits)⟩ (shiftEvents ls v n) = [] := by
  induction n generalizing ls bits with
  | zero => simp [shiftEvents, shiftLines, bitsOf, Scan.after, Scan.frames]
  | succ i ih =>
    obtain ⟨ha, hf⟩ := bit_scan ls (v.getLsbD i) m bits
    obtain ⟨ka, kf⟩ := ih (bitLines ls (v.getLsbD i)) (bits ++ [v.getLsbD i])
    refine ⟨?_, ?_⟩
    · rw [shiftEvents, Scan.after_append, ha, ka]; simp [shiftLines, bitsOf]
    · rw [shiftEvents, Scan.frames_append, ha, hf, kf]; rfl

theorem shift_replay (ls : Lines) (v : Half) (n : Nat) :
    ls.replay (shiftEvents ls v n) = shiftLines ls v n := by
  induction n generalizing ls with
  | zero => rfl
  | succ i ih => rw [shiftEvents, Lines.replay_append, bit_replay, ih]; rfl

theorem shift_disciplined {ls : Lines} (v : Half) (n : Nat) (h : ls.cs = false) :
    disciplined ls (shiftEvents ls v n) = true := by
  induction n generalizing ls with
  | zero => rfl
  | succ i ih =>
    have hb : (bitLines ls (v.getLsbD i)).cs = false := h
    rw [shiftEvents, disciplined_append, bit_disciplined _ h, bit_replay, ih hb, Bool.and_self]

/-! ## Values -/

theorem bitsOf_length (v : Half) (n : Nat) : (bitsOf v n).length = n := by
  induction n with
  | zero => rfl
  | succ i ih => simp [bitsOf, ih]

theorem foldl_bits (acc : Nat) (v : Half) (n : Nat) :
    (bitsOf v n).foldl (fun a b => 2 * a + b.toNat) acc = acc * 2 ^ n + v.toNat % 2 ^ n := by
  induction n generalizing acc with
  | zero => simp [bitsOf, Nat.mod_one]
  | succ i ih =>
    rw [bitsOf, List.foldl_cons, ih, Nat.mod_pow_succ, BitVec.getLsbD, Nat.toNat_testBit, Nat.pow_succ]
    ring

/-- The bits of a transfer, read first bit most significant, are the low bits of the value. -/
theorem bitsValue_bitsOf (v : Half) (n : Nat) : bitsValue (bitsOf v n) = v.toNat % 2 ^ n := by
  simpa [bitsValue] using foldl_bits 0 v n

/-! ## Counts of one frame (R139) -/

theorem bitEvents_length {ls : Lines} (b : Level) (h : ls.clk = true) :
    (bitEvents ls b).length = 2 + (if b = ls.mosi then 0 else 1) := by
  obtain ⟨cs, clk, mosi, dc, rst⟩ := ls
  subst h
  cases mosi <;> cases b <;> rfl

theorem shiftEvents_length {ls : Lines} (v : Half) (n : Nat) (h : ls.clk = true) :
    (shiftEvents ls v n).length = 2 * n + levelChanges ls.mosi (bitsOf v n) := by
  induction n generalizing ls with
  | zero => rfl
  | succ i ih =>
    rw [shiftEvents, List.length_append, bitEvents_length _ h, ih rfl]
    simp only [bitsOf, levelChanges, bitLines]
    omega

theorem bitEvents_pulses (ls : Lines) (b : Level) : clockPulses (bitEvents ls b) = 1 := by
  obtain ⟨cs, clk, mosi, dc, rst⟩ := ls
  cases clk <;> cases mosi <;> cases b <;> rfl

theorem shiftEvents_pulses (ls : Lines) (v : Half) (n : Nat) : clockPulses (shiftEvents ls v n) = n := by
  induction n generalizing ls with
  | zero => rfl
  | succ i ih => rw [shiftEvents, clockPulses_append, bitEvents_pulses, ih]; omega

theorem bitEvents_delays (ls : Lines) (b : Level) : delayTotal (bitEvents ls b) = 0 := by
  obtain ⟨cs, clk, mosi, dc, rst⟩ := ls
  cases clk <;> cases mosi <;> cases b <;> rfl

theorem shiftEvents_delays (ls : Lines) (v : Half) (n : Nat) : delayTotal (shiftEvents ls v n) = 0 := by
  induction n generalizing ls with
  | zero => rfl
  | succ i ih => rw [shiftEvents, delayTotal_append, bitEvents_delays, ih]

/-! ## The frame -/

theorem frame_replay {ls : Lines} (v : Half) {n : Nat} (hn : 1 ≤ n) :
    ls.replay (frameEvents ls v n) = frameLines ls v := by
  obtain ⟨i, rfl⟩ := Nat.exists_eq_add_of_le' hn
  simp only [frameEvents, Lines.replay_append, Lines.replay_driveEvents, shift_replay, shiftLines_succ]
  rfl

/-- One transfer from `CS = 1` is one frame (R138). -/
theorem frame_wave {ls : Lines} (v : Half) {n : Nat} (hn : 1 ≤ n) (h : ls.cs = true) :
    Wave ls (frameEvents ls v n) [frameOf ls.dc v n] (frameLines ls v) := by
  obtain ⟨i, rfl⟩ := Nat.exists_eq_add_of_le' hn
  have ho : ls.driveEvents .cs false = [.line .cs false] := by simp [Lines.driveEvents, Lines.get, h]
  have hc : (shiftLines (ls.set .cs false) v (i + 1)).driveEvents .cs true = [.line .cs true] := by
    rw [shiftLines_succ]; rfl
  obtain ⟨ka, kf⟩ := shift_scan (ls.set .cs false) v (i + 1) ls.dc []
  have ka' : Scan.after (Scan.next ⟨ls, none⟩ (.line .cs false)) (shiftEvents (ls.set .cs false) v (i + 1)) = _ := ka
  have kf' : Scan.frames (Scan.next ⟨ls, none⟩ (.line .cs false)) (shiftEvents (ls.set .cs false) v (i + 1)) = _ := kf
  refine ⟨frame_replay v hn, ?_, ?_, ?_, fun _ => rfl, ?_, ?_⟩
  · rw [frameEvents, ho, hc, List.singleton_append, Scan.after, Scan.after_append, ka']; rfl
  · rw [framesFrom, frameEvents, ho, hc, List.singleton_append, Scan.frames, Scan.frames_append, kf', ka']
    simp [Scan.frames, Scan.emit, closeFrame, frameOf, bitsOf_length, bitsValue_bitsOf]
  · intro hk
    have hs : disciplined (ls.replay [.line .cs false]) (shiftEvents (ls.set .cs false) v (i + 1)) = true :=
      shift_disciplined v (i + 1) rfl
    have hr : (ls.replay [.line .cs false]).replay (shiftEvents (ls.set .cs false) v (i + 1)) = _ :=
      shift_replay (ls.set .cs false) v (i + 1)
    rw [frameEvents, ho, hc, disciplined_append, disciplined_append, hs, hr, shiftLines_succ]
    simp [disciplined, eventDisciplined, h, hk, Lines.set]
  · rw [frameEvents, ho, hc, clockPulses_append, clockPulses_append, shiftEvents_pulses]
    cases hd : ls.dc <;> simp [clockPulses, frameOf, framePulses]
  · rw [frameEvents, ho, hc, delayTotal_append, delayTotal_append, shiftEvents_delays]
    cases hd : ls.dc <;> simp [delayTotal, frameOf, frameDelays]

/-! ## What a request emits -/

/-- `t` is `s` after the events `es`: only the lines, `TRACE` and the serializer differ. -/
def Sends (s t : State) (es : List Event) : Prop :=
  t = { s with lines := s.lines.replay es, trace := s.trace ++ es, shift := t.shift, bitcnt := t.bitcnt }

theorem Sends.trans {s t u : State} {es fs : List Event} (h : Sends s t es) (k : Sends t u fs) :
    Sends s u (es ++ fs) := by
  unfold Sends at *
  rw [k, h]
  simp [Lines.replay_append]

theorem Sends.drive (s : State) (l : Line) (v : Level) : Sends s (s.drive l v) (s.lines.driveEvents l v) := by
  unfold Sends; rw [Lines.replay_driveEvents]; rfl

theorem Sends.delay (s : State) (ms : Nat) : Sends s (s.delay ms) [.delay ms] := rfl

theorem Sends.sendBit (s : State) (i : Nat) :
    Sends s (s.sendBit i) (bitEvents s.lines (s.shift.getLsbD i)) := by
  unfold Sends; rw [bit_replay]; simp [State.sendBit, State.drive, bitEvents, bitLines, Lines.set]

theorem sendBit_lines (s : State) (i : Nat) : (s.sendBit i).lines = bitLines s.lines (s.shift.getLsbD i) := rfl

theorem Sends.shiftOut (s : State) (n : Nat) :
    Sends s (State.shiftOut n s) (shiftEvents s.lines s.shift n) ∧
      (State.shiftOut n s).lines = shiftLines s.lines s.shift n := by
  induction n generalizing s with
  | zero => exact ⟨by simp [Sends, State.shiftOut, shiftEvents, Lines.replay], rfl⟩
  | succ i ih =>
    obtain ⟨h, k⟩ := ih (s.sendBit i)
    exact ⟨(Sends.sendBit s i).trans h, k⟩

/-- `SendBits(v, n)` sends the events of one frame (R130). -/
theorem Sends.sendBits (s : State) (v : Half) {n : Nat} (hn : n ≤ 16) :
    Sends s (s.sendBits v n) (frameEvents s.lines v n) := by
  have hb : (BitVec.ofNat 5 n).toNat = n := by simp [BitVec.toNat_ofNat]; omega
  let s0 := (s.loadShift v n).drive .cs false
  obtain ⟨h, k⟩ := Sends.shiftOut s0 n
  have hl : Sends s (s.loadShift v n) [] := by simp [Sends, State.loadShift, Lines.replay]
  have e : s.sendBits v n = (State.shiftOut n s0).drive .cs true := by
    simp only [State.sendBits, State.frameOut, State.loadShift_bitcnt, hb]; rfl
  have hc := Sends.drive (State.shiftOut n s0) .cs true
  rw [k] at hc
  rw [e]
  exact hl.trans ((Sends.drive (s.loadShift v n) .cs false).trans (h.trans hc))

/-- `t` is `s` after frames `fs`: what every request of the engine does to the lines and to `TRACE`. -/
def Emits (s t : State) (fs : List FrameEvent) : Prop :=
  ∃ es, Sends s t es ∧ Wave s.lines es fs t.lines

theorem Sends.lines {s t : State} {es : List Event} (h : Sends s t es) : t.lines = s.lines.replay es := by
  rw [h]

theorem Emits.of_sends {s t : State} {es : List Event} {fs : List FrameEvent} {ls : Lines} (h : Sends s t es)
    (w : Wave s.lines es fs ls) : Emits s t fs := ⟨es, h, by rw [h.lines, w.lines]; exact w⟩

theorem Emits.lines_of {s t : State} {es : List Event} {fs : List FrameEvent} {ls : Lines} (h : Sends s t es)
    (w : Wave s.lines es fs ls) : t.lines = ls := by rw [h.lines, w.lines]

theorem Emits.refl (s : State) : Emits s s [] :=
  ⟨[], by simp [Sends, Lines.replay], Wave.nil _⟩

theorem Emits.trans {s t u : State} {fs gs : List FrameEvent} (h : Emits s t fs) (k : Emits t u gs) :
    Emits s u (fs ++ gs) := by
  obtain ⟨es, h1, h2⟩ := h
  obtain ⟨es', k1, k2⟩ := k
  exact ⟨es ++ es', h1.trans k1, h2.append k2⟩

theorem sendBits_emits {s : State} (v : Half) {n : Nat} (hn : 1 ≤ n) (hm : n ≤ 16) (h : s.lines.cs = true) :
    Emits s (s.sendBits v n) [frameOf s.lines.dc v n] :=
  .of_sends (Sends.sendBits s v hm) (frame_wave v hn h)

theorem sendBits_lines {s : State} (v : Half) {n : Nat} (hn : 1 ≤ n) (hm : n ≤ 16) :
    (s.sendBits v n).lines = frameLines s.lines v := by
  rw [(Sends.sendBits s v hm).lines, frame_replay v hn]

/-- A byte's frame. -/
theorem frameOf_byte (dc : Level) (b : Byte) :
    frameOf dc (zext16 b) 8 = if dc then .dataByte b else .cmdByte b := by
  have hb := b.isLt
  have e : (zext16 b).toNat % 2 ^ 8 = b.toNat := by simp only [zext16, BitVec.toNat_setWidth]; omega
  cases dc <;> simp only [frameOf, e, FrameEvent.dataByte, FrameEvent.cmdByte]

theorem sendByte_emits {s : State} (b : Byte) (h : s.lines.cs = true) :
    Emits s (s.sendByte b) [if s.lines.dc then .dataByte b else .cmdByte b] := by
  rw [← frameOf_byte]; exact sendBits_emits _ (by omega) (by omega) h

theorem sendByte_lines (s : State) (b : Byte) : (s.sendByte b).lines = frameLines s.lines (zext16 b) :=
  sendBits_lines _ (by omega) (by omega)

/-- `Cmd(b)`: one command frame; `DC = 0` afterwards (R132). -/
theorem cmd_emits {s : State} (b : Byte) (h : s.lines.cs = true) : Emits s (s.cmd b) [.cmdByte b] := by
  have h1 : Emits s (s.drive .dc false) [] := .of_sends (Sends.drive s .dc false) (Wave.driveDc h false)
  have h2 : Emits (s.drive .dc false) (s.cmd b) _ := sendByte_emits (s := s.drive .dc false) b h
  exact h1.trans h2

theorem cmd_lines (s : State) (b : Byte) :
    (s.cmd b).lines = frameLines { s.lines with dc := false } (zext16 b) := sendByte_lines _ _

/-- `DataMode()`: no frame; `DC = 1` afterwards (R133). -/
theorem dataMode_emits {s : State} (h : s.lines.cs = true) : Emits s s.dataMode [] :=
  .of_sends (Sends.drive s .dc true) (Wave.driveDc h true)

theorem dataMode_lines (s : State) : s.dataMode.lines = { s.lines with dc := true } := rfl

/-- `Dat(b)` in data mode: one data frame (R134). -/
theorem dat_emits {s : State} (b : Byte) (h : s.lines.cs = true) (hd : s.lines.dc = true) :
    Emits s (s.dat b) [.dataByte b] := by
  have := sendByte_emits (s := s) b h
  rw [hd] at this
  exact this

theorem dat_lines (s : State) (b : Byte) : (s.dat b).lines = frameLines s.lines (zext16 b) := sendByte_lines _ _

end Sys2Proof.Machine
end

