-- ==== Sys2Proof/Laws/Sequences.lean ====
section
/-! SUPPORT. What the sequences of each request emit: init rows, address windows, pixel streams, the reset pulse
(spec/30_encoding.md R105). One lemma per shared operation; the claims cite these. -/

namespace Sys2Proof.Machine

/-! ## Consequences of Emits -/

theorem Emits.kept {s t : State} {fs : List FrameEvent} (h : Emits s t fs) :
    t = { s with lines := t.lines, trace := t.trace, shift := t.shift, bitcnt := t.bitcnt } := by
  obtain ⟨es, h, -⟩ := h
  unfold Sends at h
  rw [h]

theorem Emits.desc {s t : State} {fs : List FrameEvent} (h : Emits s t fs) : t.desc = s.desc := by rw [h.kept]
theorem Emits.orient {s t : State} {fs : List FrameEvent} (h : Emits s t fs) : t.orient = s.orient := by rw [h.kept]
theorem Emits.pixbuf {s t : State} {fs : List FrameEvent} (h : Emits s t fs) : t.pixbuf = s.pixbuf := by rw [h.kept]
theorem Emits.idx {s t : State} {fs : List FrameEvent} (h : Emits s t fs) : t.idx = s.idx := by rw [h.kept]
theorem Emits.pidx {s t : State} {fs : List FrameEvent} (h : Emits s t fs) : t.pidx = s.pidx := by rw [h.kept]
theorem Emits.cols {s t : State} {fs : List FrameEvent} (h : Emits s t fs) :
    t.col0 = s.col0 ∧ t.col1 = s.col1 ∧ t.row0 = s.row0 ∧ t.row1 = s.row1 := by
  rw [h.kept]; exact ⟨rfl, rfl, rfl, rfl⟩

theorem Emits.appends {s t : State} {fs : List FrameEvent} (h : Emits s t fs) : AppendsFrames s t fs := by
  obtain ⟨es, h, w⟩ := h
  exact ⟨es, by rw [h], w.frames, w.lines⟩

/-- Emission does not depend on the registers that a request's control writes. -/
theorem Emits.withSequencer {s t : State} {fs : List FrameEvent} (h : Emits s t fs) (a : Nat) (b : BitVec 4) :
    Emits { s with idx := a, pidx := b } { t with idx := a, pidx := b } fs := by
  obtain ⟨es, h, w⟩ := h
  refine ⟨es, ?_, w⟩
  unfold Sends at *
  rw [h]

theorem Emits.withPixcnt {s t : State} {fs : List FrameEvent} (h : Emits s t fs) (a : BitVec 34) :
    Emits { s with pixcnt := a } { t with pixcnt := a } fs := by
  obtain ⟨es, h, w⟩ := h
  refine ⟨es, ?_, w⟩
  unfold Sends at *
  rw [h]

/-! ## Chains of bytes -/

/-- The lines are between frames, in data mode. -/
def DataReady (ls : Lines) : Prop := ls.cs = true ∧ ls.dc = true

theorem dat_ready {s : State} (b : Byte) (h : DataReady s.lines) : DataReady (s.dat b).lines := by
  rw [dat_lines]; exact ⟨rfl, h.2⟩

theorem dat_step {s : State} (b : Byte) (h : DataReady s.lines) : Emits s (s.dat b) [.dataByte b] := dat_emits b h.1 h.2

/-- An opcode, then data mode. -/
theorem open_ready {s : State} (b : Byte) : DataReady (s.cmd b).dataMode.lines := by
  rw [dataMode_lines, cmd_lines]; exact ⟨rfl, rfl⟩

theorem open_step {s : State} (b : Byte) (h : s.lines.cs = true) :
    Emits s (s.cmd b).dataMode [.cmdByte b] := by
  have hc : (s.cmd b).lines.cs = true := by rw [cmd_lines]; rfl
  exact (cmd_emits b h).trans (dataMode_emits hc)

/-! ## ORIENT -/

theorem sendMadctl_emits {s : State} (k : BitVec 2) (h : s.lines.cs = true) :
    Emits s (sendMadctl k s) [.cmdByte s.desc.opMadctl, .dataByte (orientRead s.desc k)] :=
  (open_step _ h).trans (dat_step _ (open_ready _))

theorem sendMadctl_ready (k : BitVec 2) (s : State) : DataReady (sendMadctl k s).lines := dat_ready _ (open_ready _)

theorem orientRead_eq (d : Desc) (k : BitVec 2) : orientRead d k = orientByte d k.toNat := by
  unfold orientRead orientByte
  have := k.isLt
  split <;> simp_all

/-! ## The address window -/

theorem sendRange_emits {s : State} (op : Byte) (v0 v1 : Half) (h : s.lines.cs = true) :
    Emits s (sendRange op v0 v1 s)
      [.cmdByte op, .dataByte (hi8 v0), .dataByte (lo8 v0), .dataByte (hi8 v1), .dataByte (lo8 v1)] := by
  have r0 := open_ready (s := s) op
  have r1 := dat_ready (hi8 v0) r0
  have r2 := dat_ready (lo8 v0) r1
  have r3 := dat_ready (hi8 v1) r2
  exact ((((open_step op h).trans (dat_step _ r0)).trans (dat_step _ r1)).trans (dat_step _ r2)).trans (dat_step _ r3)

theorem sendRange_ready (op : Byte) (v0 v1 : Half) (s : State) : DataReady (sendRange op v0 v1 s).lines :=
  dat_ready _ (dat_ready _ (dat_ready _ (dat_ready _ (open_ready _))))

theorem sendWindow_emits {s : State} (h : s.lines.cs = true) :
    Emits s (sendWindow s)
      ([.cmdByte s.desc.opCaset, .dataByte (hi8 s.col0), .dataByte (lo8 s.col0), .dataByte (hi8 s.col1),
        .dataByte (lo8 s.col1)] ++
       [.cmdByte s.desc.opRaset, .dataByte (hi8 s.row0), .dataByte (lo8 s.row0), .dataByte (hi8 s.row1),
        .dataByte (lo8 s.row1)] ++ [.cmdByte s.desc.opRamwr]) := by
  have e1 := sendRange_emits s.desc.opCaset s.col0 s.col1 h
  have r1 := sendRange_ready s.desc.opCaset s.col0 s.col1 s
  unfold sendWindow
  generalize sendRange s.desc.opCaset s.col0 s.col1 s = u at e1 r1 ⊢
  obtain ⟨-, -, c2, c3⟩ := e1.cols
  have e2 := sendRange_emits (s := u) u.desc.opRaset u.row0 u.row1 r1.1
  have r2 := sendRange_ready u.desc.opRaset u.row0 u.row1 u
  simp only [c2, c3, e1.desc] at e2 r2 ⊢
  generalize sendRange s.desc.opRaset s.row0 s.row1 u = v at e2 r2 ⊢
  have e3 := cmd_emits v.desc.opRamwr r2.1
  simp only [e2.desc, e1.desc] at e3 ⊢
  exact (e1.trans e2).trans e3

/-- `DC = 0` and `CS = 1` after the window sequence (R180). -/
theorem sendWindow_lines (s : State) :
    (sendWindow s).lines.cs = true ∧ (sendWindow s).lines.dc = false := by
  unfold sendWindow; simp only [cmd_lines]; exact ⟨rfl, rfl⟩

theorem byteFrames_ofNat (n : Nat) :
    [FrameEvent.dataByte (hi8 (BitVec.ofNat 16 n)), FrameEvent.dataByte (lo8 (BitVec.ofNat 16 n))] = wordFrames n := by
  have h1 : (hi8 (BitVec.ofNat 16 n)).toNat = n % 65536 / 256 := by
    simp only [hi8, BitVec.extractLsb'_toNat, BitVec.toNat_ofNat, Nat.shiftRight_eq_div_pow]; omega
  have h2 : (lo8 (BitVec.ofNat 16 n)).toNat = n % 256 := by
    simp only [lo8, BitVec.extractLsb'_toNat, BitVec.toNat_ofNat, Nat.shiftRight_eq_div_pow]; omega
  simp only [FrameEvent.dataByte, h1, h2, wordFrames]

theorem axisMode_iff (k : BitVec 2) : axisMode k = decide (¬ k.toNat < 2) := by
  revert k; decide

/-- `SetWindow` emits the 11 frames of R105 from the latched window. -/
theorem setWindow_emits {s : State} (w : Win) (h : s.lines.cs = true) :
    Emits (latchPanel (latchWindow w s)) (setWindow w s) (requestFrames s w.x1 w.y1 w.x2 w.y2) := by
  have e := sendWindow_emits (s := latchPanel (latchWindow w s)) h
  refine Eq.mp (congrArg (Emits _ _) ?_) e
  by_cases hk : s.orient.toNat < 2 <;>
    simp [requestFrames, hk, windowFrames, ← byteFrames_ofNat, latchPanel, latchWindow, State.violateIf,
      transform, axisMode_iff]

theorem outOfRange_iff (s : State) (w : Win) :
    outOfRange s.desc (axisMode s.orient) (transform s.orient s.offx s.offy w) =
      decide (rangeViolated s w.x2 w.y2) := by
  by_cases hk : s.orient.toNat < 2 <;>
    simp [outOfRange, transform, axisMode_iff, hk, colMax, rowMax, rangeViolated]

/-! ## The pixel stream -/

theorem sendPixel_lines (b : Byte) (n : Nat) (s : State) : (sendPixel b n s).lines = (s.dat b).lines := rfl

theorem sendPixel_ready {s : State} (b : Byte) (n : Nat) (h : DataReady s.lines) :
    DataReady (sendPixel b n s).lines := by
  rw [sendPixel_lines]; exact dat_ready b h

theorem sendPixel_emits {s : State} (b : Byte) (n : Nat) (h : DataReady s.lines) :
    Emits { s with pixcnt := BitVec.ofNat 34 n } (sendPixel b n s) [.dataByte b] := by
  unfold sendPixel
  have e := dat_step b h
  generalize s.dat b = u at e ⊢
  exact e.withPixcnt (BitVec.ofNat 34 n)

/-- The stream loop sends the next bytes of the buffer, in order (R190, R193). -/
theorem streamLoop_emits (bytes : List Byte) (k : Nat) (s : State) (h : DataReady s.lines)
    (hb : ∀ i, i < bytes.length → pixRead s (k + i) = bytes[i]?) :
    ∃ t, streamLoop bytes.length k s = some t ∧ DataReady t.lines ∧
      Emits { s with pixcnt := t.pixcnt } t (bytes.map .dataByte) := by
  induction bytes generalizing k s with
  | nil => exact ⟨s, rfl, h, Emits.refl s⟩
  | cons b bs ih =>
    have h0 : pixRead s k = some b := by simpa using hb 0 (by simp)
    have e := sendPixel_emits b bs.length h
    have hr := sendPixel_ready b bs.length h
    rw [List.length_cons, streamLoop, h0]
    simp only
    generalize sendPixel b bs.length s = u at e hr ⊢
    obtain ⟨t, ht, hr, he⟩ := ih (k + 1) u hr (fun i hi => by
      have := hb (i + 1) (by simpa using hi)
      simpa [pixRead, e.pixbuf, Nat.add_assoc, Nat.add_comm 1] using this)
    exact ⟨t, ht, hr, (e.withPixcnt t.pixcnt).trans he⟩

theorem dat_pixbuf (s : State) (b : Byte) : (s.dat b).pixbuf = s.pixbuf := by
  have h := Sends.sendBits s (zext16 b) (n := 8) (by omega)
  unfold State.dat State.sendByte
  generalize s.sendBits (zext16 b) 8 = u at h ⊢
  rw [h]

/-- A missing byte stops the stream. -/
theorem streamLoop_none (n k i : Nat) (s : State) (hi : i < n) (h : pixRead s (k + i) = none) :
    streamLoop n k s = none := by
  induction n generalizing k i s with
  | zero => omega
  | succ n ih =>
    rw [streamLoop]
    cases hk : pixRead s k with
    | none => rfl
    | some b =>
      cases i with
      | zero => simp [hk] at h
      | succ i =>
        have hp : (sendPixel b n s).pixbuf = s.pixbuf := dat_pixbuf s b
        exact ih (k + 1) i _ (by omega) (by
          simpa [pixRead, hp, Nat.add_assoc, Nat.add_comm 1] using h)

theorem pixelBytes_lt (x1 y1 x2 y2 : Half) : pixelBytes x1 y1 x2 y2 < 2 ^ 34 := by
  have h1 := x2.isLt
  have h2 := y2.isLt
  have : (x2.toNat - x1.toNat + 1) * (y2.toNat - y1.toNat + 1) ≤ 65536 * 65536 :=
    Nat.mul_le_mul (by omega) (by omega)
  unfold pixelBytes
  rw [Nat.mul_assoc]
  omega

/-! ## Init rows -/

/-- The byte the sequencer sends at parameter index `p`. -/
def byteAt (d : Desc) (k : BitVec 2) (row : InitRow) (p : Nat) : Byte :=
  if d.orientHook = some row.opcode ∧ p = 0 then orientRead d k else row.params.getD p 0

/-- The bytes at `n` parameter indices from `p` on. -/
def bytesFrom (d : Desc) (k : BitVec 2) (row : InitRow) (p : Nat) : Nat → List Byte
  | 0 => []
  | n + 1 => byteAt d k row p :: bytesFrom d k row (p + 1) n

theorem sendParams_emits (row : InitRow) (n p : Nat) (s : State) (h : DataReady s.lines) (hp : s.pidx.toNat = p)
    (hn : p + n ≤ 15) :
    DataReady (sendParams row n s).lines ∧
      Emits { s with pidx := (sendParams row n s).pidx } (sendParams row n s)
        ((bytesFrom s.desc s.orient row p n).map .dataByte) := by
  induction n generalizing p s with
  | zero => exact ⟨h, Emits.refl s⟩
  | succ n ih =>
    have hb : paramByte row s = byteAt s.desc s.orient row p := by simp [paramByte, byteAt, hp]
    have e := dat_step (byteAt s.desc s.orient row p) h
    have hr := dat_ready (byteAt s.desc s.orient row p) h
    rw [sendParams, hb]
    generalize s.dat (byteAt s.desc s.orient row p) = u at e hr ⊢
    have hp1 : (u.pidx + 1).toNat = p + 1 := by rw [e.pidx, BitVec.toNat_add, hp]; simp; omega
    obtain ⟨hr', he⟩ := ih (p + 1) { u with pidx := u.pidx + 1 } hr hp1 (by omega)
    have hl : bytesFrom u.desc u.orient row (p + 1) n = bytesFrom s.desc s.orient row (p + 1) n := by
      rw [e.desc, e.orient]
    simp only [hl] at he
    generalize sendParams row n { u with pidx := u.pidx + 1 } = t at he hr' ⊢
    refine ⟨hr', ?_⟩
    have e' := e.withSequencer s.idx t.pidx
    rw [← e.idx] at e'
    simpa [bytesFrom, e.idx] using e'.trans he

theorem bytesFrom_plain {d : Desc} {row : InitRow} (k : BitVec 2) (h : d.orientHook ≠ some row.opcode)
    (p n : Nat) (hn : p + n ≤ row.params.length) :
    bytesFrom d k row p n = (row.params.drop p).take n := by
  induction n generalizing p with
  | zero => simp [bytesFrom]
  | succ n ih =>
    have hl : p < row.params.length := by omega
    rw [bytesFrom, ih (p + 1) (by omega), List.drop_eq_getElem_cons hl, List.take_succ_cons]
    simp [byteAt, h, List.getD_eq_getElem?_getD, List.getElem?_eq_getElem hl]

/-- A row the descriptor's well-formedness admits: R8 (a) and (c). -/
def RowOk (d : Desc) (row : InitRow) : Prop :=
  row.parameterCount ≤ 15 ∧ row.params.length = 16 ∧ (d.orientHook = some row.opcode → row.parameterCount = 1)

theorem bytesFrom_row {d : Desc} {row : InitRow} (k : BitVec 2) (h : RowOk d row) :
    bytesFrom d k row 0 row.parameterCount = rowBytes d k.toNat row := by
  obtain ⟨h1, h2, h3⟩ := h
  by_cases hk : d.orientHook = some row.opcode
  · rw [h3 hk]; simp [bytesFrom, byteAt, rowBytes, hk, orientRead_eq]
  · rw [bytesFrom_plain k hk 0 _ (by omega)]; simp [rowBytes, hk]

theorem settle_emits {s : State} (row : InitRow) (h : s.lines.cs = true) :
    Emits s (settle row s) (if row.delayAfter then [.delay s.desc.settleMs] else []) := by
  by_cases hdl : row.delayAfter
  · simp only [settle, hdl, ↓reduceIte]
    exact .of_sends (Sends.delay s _) (Wave.delay h _)
  · simp only [settle, hdl, Bool.false_eq_true, ↓reduceIte, List.append_nil]
    exact Emits.refl _

/-- One row: its frames and its settle delay (R151, R153, R154). -/
theorem runRow_emits {s : State} {row : InitRow} (hc : s.lines.cs = true) (h : RowOk s.desc row) :
    DataReady (runRow row s).lines ∧ (runRow row s).idx = s.idx + 1 ∧
      Emits { s with idx := (runRow row s).idx, pidx := (runRow row s).pidx } (runRow row s)
        (rowFrames s.desc s.orient.toNat row) := by
  have e1 := open_step (s := s) row.opcode hc
  have r1 := open_ready (s := s) row.opcode
  unfold runRow sendRow
  simp only
  generalize (s.cmd row.opcode).dataMode = u at e1 r1 ⊢
  obtain ⟨r2, e2⟩ := sendParams_emits row row.parameterCount 0 { u with pidx := 0 } r1 rfl (by simpa using h.1)
  have hl : bytesFrom u.desc u.orient row 0 row.parameterCount = rowBytes s.desc s.orient.toNat row := by
    rw [e1.desc, e1.orient, bytesFrom_row _ h]
  simp only [hl] at e2
  generalize sendParams row row.parameterCount { u with pidx := 0 } = v at e2 r2 ⊢
  have e3 := settle_emits (s := v) row r2.1
  have hd : v.desc = s.desc := e2.desc.trans e1.desc
  have hi : v.idx = s.idx := e2.idx.trans e1.idx
  have r3 : DataReady (settle row v).lines := r2
  have hp : (settle row v).pidx = v.pidx := rfl
  have hi3 : (settle row v).idx = v.idx := rfl
  rw [hd] at e3
  generalize settle row v = w at e3 r3 hp hi3 ⊢
  refine ⟨r3, by rw [hi3, hi], ?_⟩
  have f1 := e1.withSequencer (w.idx + 1) v.pidx
  have f2 := e2.withSequencer (w.idx + 1) v.pidx
  have f3 := e3.withSequencer (w.idx + 1) v.pidx
  have f := (f1.trans f2).trans f3
  rw [List.append_assoc, ← hp] at f
  exact f

/-- The delays of a well-formed descriptor (R270). -/
theorem delays_of_wf {d : Desc} (h : d.wf = true) : d.settleMs = 100 ∧ 100 ≤ d.resetLowMs ∧ 100 ≤ d.resetHighMs := by
  simp only [Desc.wf, Bool.and_eq_true, decide_eq_true_eq] at h
  exact ⟨h.2, h.1.1.2, h.1.2⟩

/-- The rows of a well-formed descriptor are admissible. -/
theorem rowOk_of_wf {d : Desc} (h : d.wf = true) :
    ∃ rows, InitRow.beforeEnd d.initTable = some rows ∧ ∀ r ∈ rows, RowOk d r := by
  unfold Desc.wf at h
  cases hr : InitRow.beforeEnd d.initTable with
  | none => simp [hr] at h
  | some rows =>
    simp only [hr, Bool.and_eq_true, List.all_eq_true] at h
    obtain ⟨⟨⟨⟨h1, h2⟩, -⟩, -⟩, -⟩ := h
    refine ⟨rows, rfl, fun r hm => ?_⟩
    have hw := h1 r hm
    simp only [InitRow.wf, Bool.and_eq_true, decide_eq_true_eq] at hw
    refine ⟨hw.1, hw.2, fun hk => ?_⟩
    simp only [Desc.hookWf, hk, Bool.and_eq_true, List.all_eq_true] at h2
    simpa using h2.2 r (by simp [hm])

theorem beforeEnd_cons {r : InitRow} {rs rows : List InitRow} (h : InitRow.beforeEnd (r :: rs) = some rows) :
    (r.ctl = .stop ∧ rows = []) ∨
      (r.ctl ≠ .stop ∧ ∃ rest, InitRow.beforeEnd rs = some rest ∧ rows = r :: rest) := by
  unfold InitRow.beforeEnd at h
  split at h
  · next hc => left; simp at h; exact ⟨hc, h⟩
  · next hc =>
    right
    cases hb : InitRow.beforeEnd rs with
    | none => simp [hb] at h
    | some rest => simp [hb] at h; exact ⟨by simp [hc], rest, rfl, h.symm⟩

theorem beforeEnd_length {rs rows : List InitRow} (h : InitRow.beforeEnd rs = some rows) :
    rows.length < rs.length := by
  induction rs generalizing rows with
  | nil => simp [InitRow.beforeEnd] at h
  | cons r rs ih =>
    rcases beforeEnd_cons h with ⟨-, rfl⟩ | ⟨-, rest, hr, rfl⟩
    · simp
    · simpa using ih hr

/-- The loop of INIT sends the rows before the first sentinel, in order, and ends (R151, R152). -/
theorem initLoop_emits (rows : List InitRow) (fuel : Nat) (s : State) (hc : s.lines.cs = true)
    (hb : InitRow.beforeEnd (s.desc.initTable.drop s.idx) = some rows) (hf : rows.length < fuel)
    (hw : ∀ r ∈ rows, RowOk s.desc r) :
    ∃ t, initLoop fuel s = some t ∧ t.lines.cs = true ∧
      t.lines.dc = (if rows = [] then s.lines.dc else true) ∧ t.idx = s.idx + rows.length ∧
      Emits { s with idx := t.idx, pidx := t.pidx } t (rows.flatMap (rowFrames s.desc s.orient.toNat)) := by
  induction rows generalizing fuel s with
  | nil =>
    obtain ⟨fuel, rfl⟩ := Nat.exists_eq_add_of_lt hf
    cases hd : s.desc.initTable.drop s.idx with
    | nil => simp [hd, InitRow.beforeEnd] at hb
    | cons r rs =>
      rw [hd] at hb
      have hr : tabRow s.desc s.idx = some r := by
        have := congrArg (fun l => l[0]?) hd
        simpa [tabRow] using this
      rcases beforeEnd_cons hb with ⟨hs, -⟩ | ⟨-, rest, -, h⟩
      · refine ⟨s, ?_, hc, rfl, rfl, Emits.refl s⟩
        simp [initLoop, hr, hs]
      · exact absurd h (by simp)
  | cons row rows ih =>
    cases fuel with
    | zero => simp at hf
    | succ fuel =>
      cases hd : s.desc.initTable.drop s.idx with
      | nil => simp [hd, InitRow.beforeEnd] at hb
      | cons r rs =>
        rw [hd] at hb
        have hr : tabRow s.desc s.idx = some r := by
          have := congrArg (fun l => l[0]?) hd
          simpa [tabRow] using this
        rcases beforeEnd_cons hb with ⟨-, h⟩ | ⟨hs, rest, hrest, h⟩
        · exact absurd h (by simp)
        · obtain ⟨rfl, rfl⟩ := List.cons.inj h
          obtain ⟨r1, hi, e1⟩ := runRow_emits hc (hw row (by simp))
          have hdesc : (runRow row s).desc = s.desc := e1.desc
          have hor : (runRow row s).orient = s.orient := e1.orient
          have hdrop : s.desc.initTable.drop (s.idx + 1) = rs := by
            have := congrArg List.tail hd
            simpa [List.tail_drop] using this
          obtain ⟨t, ht, hcs, hdc, hidx, e2⟩ := ih fuel (runRow row s) r1.1
            (by rw [hdesc, hi, hdrop]; exact hrest) (by simpa using hf)
            (fun r hm => by rw [hdesc]; exact hw r (by simp [hm]))
          have hl : rows.flatMap (rowFrames (runRow row s).desc (runRow row s).orient.toNat) =
              rows.flatMap (rowFrames s.desc s.orient.toNat) := by rw [hdesc, hor]
          rw [hl] at e2
          refine ⟨t, ?_, hcs, ?_, ?_, ?_⟩
          · simp only [initLoop, hr, hs, ↓reduceIte]; exact ht
          · rw [hdc]; simp [r1.2]
          · rw [hidx, hi]; simp; omega
          · exact (e1.withSequencer t.idx t.pidx).trans e2

/-! ## The reset pulse -/

/-- The events of the pulse (R210). -/
def pulseEvents (d : Desc) : List Event :=
  [.line .rst false, .delay d.resetLowMs, .line .rst true, .delay d.resetHighMs]

theorem resetPulse_sends {s : State} (h : s.desc.hasReset = true) (hr : s.lines.rst = some true) :
    Sends s (resetPulse s) (pulseEvents s.desc) ∧ (resetPulse s).lines = s.lines := by
  have hl : s.lines = { s.lines with rst := some true } := by rw [← hr]
  refine ⟨?_, ?_⟩
  · simp [Sends, resetPulse, h, State.drive, State.delay, Lines.driveEvents, Lines.get, Lines.set, pulseEvents,
      Lines.replay, hr]
  · rw [hl]; simp [resetPulse, h, State.drive, State.delay, Lines.set, hr]

theorem pulse_wave {ls : Lines} (d : Desc) (hc : ls.cs = true) (hr : ls.rst = some true) :
    Wave ls (pulseEvents d) [.rst false, .delay d.resetLowMs, .rst true, .delay d.resetHighMs] ls := by
  obtain ⟨cs, clk, mosi, dc, rst⟩ := ls
  simp only at hc hr
  subst hc; subst hr
  exact ⟨rfl, rfl, rfl, fun _ => rfl, id, rfl, rfl⟩

end Sys2Proof.Machine
end

