-- ==== Sys2Proof/Laws/Requests.lean ====
section
/-! SUPPORT. What a request can do, in any state: the events it appends and the fields it writes. One lemma per
shared operation, and `exec_accepted`, which says once what an accepted request does. -/

namespace Sys2Proof.Machine

/-! ## Runs -/

/-- `t` is `s` after events that move no reset line (and record no delay, if `d` is false); besides the lines and
`TRACE` only the registers of the loops differ. -/
def Runs (d : Bool) (s t : State) : Prop :=
  ∃ es, (∀ v, Event.line .rst v ∉ es) ∧ (d = false → ∀ ms, Event.delay ms ∉ es) ∧
    t = { s with lines := s.lines.replay es, trace := s.trace ++ es, idx := t.idx, pidx := t.pidx,
                 shift := t.shift, bitcnt := t.bitcnt, pixcnt := t.pixcnt }

theorem Runs.refl (d : Bool) (s : State) : Runs d s s :=
  ⟨[], by simp, by simp, by simp [Lines.replay]⟩

theorem Runs.trans {d : Bool} {s t u : State} (h : Runs d s t) (k : Runs d t u) : Runs d s u := by
  obtain ⟨es, h1, h2, h3⟩ := h
  obtain ⟨fs, k1, k2, k3⟩ := k
  refine ⟨es ++ fs, fun v => by simp [h1 v, k1 v], fun hd ms => by simp [h2 hd ms, k2 hd ms], ?_⟩
  rw [k3, h3]
  simp [Lines.replay_append]

theorem Runs.weaken {s t : State} (h : Runs false s t) (d : Bool) : Runs d s t := by
  obtain ⟨es, h1, h2, h3⟩ := h
  exact ⟨es, h1, fun _ => h2 rfl, h3⟩

theorem mem_driveEvents {ls : Lines} {l : Line} {v : Level} {e : Event} (h : e ∈ ls.driveEvents l v) :
    e = .line l v := by
  unfold Lines.driveEvents at h
  split at h
  · simp at h
  · split at h
    · simp at h
    · simpa using h

theorem Runs.drive (s : State) {l : Line} (v : Level) (hl : l ≠ .rst) : Runs false s (s.drive l v) := by
  refine ⟨s.lines.driveEvents l v, fun w hw => ?_, fun _ ms hm => ?_, ?_⟩
  · have := mem_driveEvents hw; simp at this; exact hl this.1.symm
  · simpa using mem_driveEvents hm
  · rw [Lines.replay_driveEvents]; rfl

theorem Runs.sendBit (s : State) (i : Nat) : Runs false s (s.sendBit i) := by
  have h := ((Runs.drive s (l := .clk) false (by simp)).trans (Runs.drive _ (l := .mosi) (s.shift.getLsbD i)
    (by simp))).trans (Runs.drive _ (l := .clk) true (by simp))
  obtain ⟨es, h1, h2, h3⟩ := h
  exact ⟨es, h1, h2, by unfold State.sendBit; rw [h3]⟩

theorem Runs.shiftOut (s : State) (n : Nat) : Runs false s (State.shiftOut n s) := by
  induction n generalizing s with
  | zero => exact Runs.refl _ _
  | succ i ih => exact (Runs.sendBit s i).trans (ih _)

theorem Runs.sendBits (s : State) (v : Half) (n : Nat) : Runs false s (s.sendBits v n) := by
  have h0 : Runs false s (s.loadShift v n) := ⟨[], by simp, by simp, by simp [State.loadShift, Lines.replay]⟩
  exact ((h0.trans (Runs.drive _ (l := .cs) false (by simp))).trans (Runs.shiftOut _ _)).trans
    (Runs.drive _ (l := .cs) true (by simp))

theorem Runs.sendByte (s : State) (b : Byte) : Runs false s (s.sendByte b) := Runs.sendBits s _ 8
theorem Runs.dat (s : State) (b : Byte) : Runs false s (s.dat b) := Runs.sendBits s _ 8
theorem Runs.dataMode (s : State) : Runs false s s.dataMode := Runs.drive s true (by simp)

theorem Runs.cmd (s : State) (b : Byte) : Runs false s (s.cmd b) :=
  (Runs.drive s (l := .dc) false (by simp)).trans (Runs.sendByte _ _)

theorem Runs.open (s : State) (b : Byte) : Runs false s (s.cmd b).dataMode :=
  (Runs.cmd s b).trans (Runs.dataMode _)

theorem Runs.sendMadctl (k : BitVec 2) (s : State) : Runs false s (sendMadctl k s) :=
  (Runs.open s _).trans (Runs.dat _ _)

theorem Runs.sendRange (op : Byte) (v0 v1 : Half) (s : State) : Runs false s (sendRange op v0 v1 s) :=
  ((((Runs.open s op).trans (Runs.dat _ _)).trans (Runs.dat _ _)).trans (Runs.dat _ _)).trans (Runs.dat _ _)

theorem Runs.sendWindow (s : State) : Runs false s (sendWindow s) :=
  ((Runs.sendRange _ _ _ s).trans (Runs.sendRange _ _ _ _)).trans (Runs.cmd _ _)

/-- Writing the registers of the loops is a run of no event. -/
theorem Runs.write (s : State) (i : Nat) (p : BitVec 4) (v : BitVec 16) (n : BitVec 5) (c : BitVec 34) :
    Runs false s { s with idx := i, pidx := p, shift := v, bitcnt := n, pixcnt := c } :=
  ⟨[], by simp, by simp, by simp [Lines.replay]⟩

theorem Runs.sendPixel (b : Byte) (n : Nat) (s : State) : Runs false s (sendPixel b n s) :=
  (Runs.dat s b).trans (.write _ _ _ _ _ _)

theorem Runs.streamLoop {n k : Nat} {s t : State} (h : streamLoop n k s = some t) : Runs false s t := by
  induction n generalizing k s with
  | zero => cases h; exact Runs.refl _ _
  | succ n ih =>
    rw [Machine.streamLoop] at h
    split at h
    · cases h
    · exact (Runs.sendPixel _ n s).trans (ih h)

theorem Runs.sendParams (row : InitRow) (n : Nat) (s : State) : Runs false s (sendParams row n s) := by
  induction n generalizing s with
  | zero => exact Runs.refl _ _
  | succ n ih =>
    rw [Machine.sendParams]
    exact ((Runs.dat s (paramByte row s)).trans (.write _ _ _ _ _ _)).trans (ih _)

theorem Runs.settle (row : InitRow) (s : State) : Runs true s (settle row s) := by
  refine ⟨if row.delayAfter then [.delay s.desc.settleMs] else [], ?_, by simp, ?_⟩
  · intro v; split <;> simp
  · unfold Machine.settle; split <;> simp [Lines.replay]

theorem Runs.runRow (row : InitRow) (s : State) : Runs true s (runRow row s) := by
  have h1 := (Runs.open s row.opcode).weaken true
  unfold Machine.runRow sendRow
  simp only
  generalize (s.cmd row.opcode).dataMode = u at h1 ⊢
  have h2 : Runs true u { u with pidx := 0 } := (Runs.write u u.idx 0 u.shift u.bitcnt u.pixcnt).weaken true
  have h3 := (Runs.sendParams row row.parameterCount { u with pidx := 0 }).weaken true
  generalize Machine.sendParams row row.parameterCount { u with pidx := 0 } = v at h3 ⊢
  have h4 := Runs.settle row v
  generalize Machine.settle row v = w at h4 ⊢
  exact (((h1.trans h2).trans h3).trans h4).trans ((Runs.write _ _ _ _ _ _).weaken true)

theorem Runs.initLoop {fuel : Nat} {s t : State} (h : initLoop fuel s = some t) : Runs true s t := by
  induction fuel generalizing s with
  | zero => cases h
  | succ fuel ih =>
    rw [Machine.initLoop] at h
    split at h
    · cases h
    · next row _ =>
      split at h
      · cases h; exact Runs.refl _ _
      · exact (Runs.runRow row s).trans (ih h)

/-! ## Violations -/

theorem mem_insertReason (r x : Violation) (l : List Violation) :
    x ∈ insertReason r l ↔ x = r ∨ x ∈ l := by
  induction l with
  | nil => simp [insertReason]
  | cons y ys ih =>
    unfold insertReason
    split
    · simp
    · split
      · next h =>
        have : r = y := by revert h; cases r <;> cases y <;> simp [Violation.place]
        subst this; simp
      · simp only [List.mem_cons, ih]; tauto

theorem insertReason_ne_nil (r : Violation) (l : List Violation) : insertReason r l ≠ [] := by
  cases l with
  | nil => simp [insertReason]
  | cons y ys => unfold insertReason; split <;> (try split) <;> simp

theorem reasonsWf_cons (a : Violation) (l : List Violation) :
    reasonsWf (a :: l) = ((match l with | [] => true | b :: _ => decide (a.place < b.place)) && reasonsWf l) := by
  cases l <;> simp [reasonsWf]

/-- Recording a reason keeps the canonical form. -/
theorem reasonsWf_insert (r : Violation) {l : List Violation} (h : reasonsWf l = true) :
    reasonsWf (insertReason r l) = true := by
  induction l with
  | nil => rfl
  | cons y ys ih =>
    rw [reasonsWf_cons, Bool.and_eq_true] at h
    unfold insertReason
    split
    · next hlt => simp [reasonsWf_cons, hlt, h.1, h.2]
    · split
      · rw [reasonsWf_cons]; simp [h.1, h.2]
      · next h1 h2 =>
        rw [reasonsWf_cons, ih h.2, Bool.and_true]
        cases ys with
        | nil => simp only [insertReason, decide_eq_true_eq]; omega
        | cons z zs =>
          have hz := h.1
          simp only [decide_eq_true_eq] at hz
          by_cases c1 : r.place < z.place
          · simp only [insertReason, c1, ↓reduceIte, decide_eq_true_eq]; omega
          · by_cases c2 : r.place = z.place <;> simp [insertReason, c1, c2, hz]

theorem Violates.refl (s : State) : Violates s s [] := ⟨by simp, by simp⟩

theorem Violates.trans {s t u : State} {a b : List Violation} (h : Violates s t a) (k : Violates t u b) :
    Violates s u (a ++ b) := by
  refine ⟨fun r => ?_, ?_⟩
  · rw [k.1, h.1, List.mem_append]; tauto
  · rw [k.2, h.2]; cases a <;> cases b <;> simp

theorem Violates.violateIf (s : State) (c : Bool) (r : Violation) :
    Violates s (s.violateIf c r) (if c then [r] else []) := by
  cases c
  · exact ⟨by simp, by simp⟩
  · exact ⟨fun x => by simp [mem_insertReason, or_comm], by simp⟩

/-- Only the ghost flags matter. -/
theorem Violates.congr {s t u : State} {a : List Violation} (h : Violates s t a) (hv : u.viol = t.viol)
    (hr : u.violReasons = t.violReasons) : Violates s u a := by
  unfold Violates at *; rw [hv, hr]; exact h

/-! ## What an accepted request does -/

/-- The ORIENT register after an accepted request. -/
def nextOrient (i : Instr) (k : BitVec 2) : BitVec 2 :=
  match i with
  | .orient a => a.setWidth 2
  | .sendbits _ _ => k
  | .sendbyte _ => k
  | .init => k
  | .window _ _ _ _ => k
  | .flush _ _ _ _ => k
  | .slpin => k
  | .slpout => k
  | .hwreset => k

/-- What every accepted request does, in any state: it appends events, responds OK, and writes the phase, the ghost
flags and ORIENT as the tables say, nothing else of the instance's configuration. -/
structure Accepted (i : Instr) (s t : State) : Prop where
  events : ∃ es, t.trace = s.trace ++ es ∧ s.lines.replay es = t.lines ∧
    (i ≠ .hwreset → ∀ v, Event.line .rst v ∉ es) ∧
    (i ≠ .hwreset → i ≠ .init → ∀ ms, Event.delay ms ∉ es)
  config : ConfigKept s t
  rsp : t.rsp = ⟨0, 0⟩
  busy : t.busy = false
  phase : t.phase = nextPhase i s.phase
  violates : Violates s t (violationsOf i s)
  reasons : reasonsWf s.violReasons = true → reasonsWf t.violReasons = true
  reasonsKept : violationsOf i s = [] → t.violReasons = s.violReasons
  orient : t.orient = nextOrient i s.orient
  rstdone : t.rstdone = (if i = .hwreset then true else s.rstdone)

theorem Runs.fields {d : Bool} {s t : State} (h : Runs d s t) :
    t.desc = s.desc ∧ t.offx = s.offx ∧ t.offy = s.offy ∧ t.pixbuf = s.pixbuf ∧ t.pending = s.pending ∧
      t.orient = s.orient ∧ t.phase = s.phase ∧ t.viol = s.viol ∧ t.violReasons = s.violReasons ∧
      t.rstdone = s.rstdone := by
  obtain ⟨es, -, -, h⟩ := h
  rw [h]; exact ⟨rfl, rfl, rfl, rfl, rfl, rfl, rfl, rfl, rfl, rfl⟩

theorem Runs.events {d : Bool} {s t : State} (h : Runs d s t) :
    ∃ es, t.trace = s.trace ++ es ∧ s.lines.replay es = t.lines ∧ (∀ v, Event.line .rst v ∉ es) ∧
      (d = false → ∀ ms, Event.delay ms ∉ es) := by
  obtain ⟨es, h1, h2, h3⟩ := h
  exact ⟨es, by rw [h3], by rw [h3], h1, h2⟩

theorem bne_ite {p q : Phase} (r : Violation) :
    (if (p != q) = true then [r] else []) = reasonIf (p ≠ q) r := by
  by_cases h : p = q <;> simp [h, reasonIf]

theorem reasons_violateIf (s : State) (c : Bool) (r : Violation) (h : reasonsWf s.violReasons = true) :
    reasonsWf (s.violateIf c r).violReasons = true := by
  rw [State.violateIf_violReasons]; split
  · exact reasonsWf_insert r h
  · exact h

theorem violateIf_kept {s : State} {c : Bool} (r : Violation) (h : c = false) :
    (s.violateIf c r).violReasons = s.violReasons := by simp [h]

theorem reasonIf_nil {p : Prop} [Decidable p] {r : Violation} (h : reasonIf p r = []) : ¬ p := by
  intro hp; simp [reasonIf, hp] at h

theorem bne_kept {p q : Phase} {r : Violation} (h : reasonIf (p ≠ q) r = []) : (p != q) = false := by
  simpa using reasonIf_nil h

theorem windowOrdered_iff (x1 y1 x2 y2 : Half) :
    windowOrdered x1 y1 x2 y2 = true ↔ ¬ (x2.toNat < x1.toNat ∨ y2.toNat < y1.toNat) := by
  simp [windowOrdered]

theorem bitCountLegal_iff (b : Half) : bitCountLegal b = true ↔ ¬ (b.toNat < 1 ∨ 16 < b.toNat) := by
  simp only [bitCountLegal, show Config.bitsMax = 16 from rfl, Bool.and_eq_true, decide_eq_true_eq]; omega

theorem orientLegal_iff (a : Half) : orientLegal a = true ↔ ¬ 3 < a.toNat := by
  simp [orientLegal]

/-- The legality checks of INIT (R158). -/
theorem initLegality_violates (s : State) : Violates s s.initLegality (violationsOf .init s) := by
  have h1 := Violates.violateIf s (s.phase != .uninitialized) .initRepeated
  have h2 := Violates.violateIf (s.violateIf (s.phase != .uninitialized) .initRepeated)
    (s.desc.hasReset && !s.rstdone) .initWithoutReset
  have e : (if (s.desc.hasReset && !s.rstdone) = true then [Violation.initWithoutReset] else []) =
      reasonIf (s.desc.hasReset = true ∧ s.rstdone = false) .initWithoutReset := by
    cases s.desc.hasReset <;> cases s.rstdone <;> rfl
  rw [bne_ite] at h1
  rw [e] at h2
  exact h1.trans h2

theorem initLegality_reasons (s : State) (h : reasonsWf s.violReasons = true) :
    reasonsWf { s.initLegality with idx := 0 }.violReasons = true :=
  reasons_violateIf _ _ _ (reasons_violateIf s _ _ h)

/-- The violations of a window request: the phase, then the range (R177, R181). -/
theorem window_violates (s : State) (w : Win) (r : Violation) :
    Violates s (latchPanel (latchWindow w (s.violateIf (s.phase != .awake) r)))
      (reasonIf (s.phase ≠ .awake) r ++ reasonIf (rangeViolated s w.x2 w.y2) .windowRange) := by
  have h1 := Violates.violateIf s (s.phase != .awake) r
  rw [bne_ite] at h1
  have h2 : Violates (s.violateIf (s.phase != .awake) r)
      (latchPanel (latchWindow w (s.violateIf (s.phase != .awake) r)))
      (reasonIf (rangeViolated s w.x2 w.y2) .windowRange) := by
    have := Violates.violateIf (s.violateIf (s.phase != .awake) r)
      (outOfRange s.desc (axisMode s.orient) (transform s.orient s.offx s.offy w)) .windowRange
    rw [outOfRange_iff] at this
    simp only [decide_eq_true_eq] at this
    exact this.congr (by rw [← outOfRange_iff]; rfl) (by rw [← outOfRange_iff]; rfl)
  exact h1.trans h2

theorem window_reasons (s : State) (w : Win) (r : Violation) (h : reasonsWf s.violReasons = true) :
    reasonsWf (latchPanel (latchWindow w (s.violateIf (s.phase != .awake) r))).violReasons = true :=
  reasons_violateIf _ _ _ (reasons_violateIf s _ _ h)

theorem initLegality_kept {s : State} (h : violationsOf .init s = []) :
    s.initLegality.violReasons = s.violReasons := by
  obtain ⟨h1, h2⟩ := List.append_eq_nil_iff.1 h
  have h3 := reasonIf_nil h2
  have h4 : (s.desc.hasReset && !s.rstdone) = false := by
    cases hr : s.desc.hasReset <;> cases hd : s.rstdone <;> simp_all
  exact (violateIf_kept _ h4).trans (violateIf_kept _ (bne_kept h1))

theorem window_kept {s : State} (w : Win) {r : Violation}
    (h : reasonIf (s.phase ≠ .awake) r ++ reasonIf (rangeViolated s w.x2 w.y2) .windowRange = []) :
    (latchPanel (latchWindow w (s.violateIf (s.phase != .awake) r))).violReasons = s.violReasons := by
  obtain ⟨h1, h2⟩ := List.append_eq_nil_iff.1 h
  have h3 : outOfRange s.desc (axisMode s.orient) (transform s.orient s.offx s.offy w) = false := by
    rw [outOfRange_iff]; simpa only [decide_eq_false_iff_not] using reasonIf_nil h2
  exact (violateIf_kept _ h3).trans (violateIf_kept _ (bne_kept h1))

/-! ## Each request, accepted -/

theorem sendbits_accepted {v n : Half} {s t : State} (h : exec (.sendbits v n) s = .next t)
    (ha : argumentError (.sendbits v n) = none) : Accepted (.sendbits v n) s t := by
  have hl : bitCountLegal n = true := by
    rw [bitCountLegal_iff]; intro hc; simp only [argumentError, hc, ↓reduceIte, reduceCtorEq] at ha
  simp only [exec, execSendbits, hl, ↓reduceIte, Host.Outcome.next.injEq] at h
  have r := Runs.sendBits s v n.toNat
  generalize s.sendBits v n.toNat = u at h r
  subst h
  obtain ⟨es, e1, e2, e3, e4⟩ := r.events
  obtain ⟨f1, f2, f3, f4, f5, f6, f7, f8, f9, f10⟩ := r.fields
  exact ⟨⟨es, e1, e2, fun _ => e3, fun _ _ => e4 rfl⟩, ⟨f1, f2, f3, f4, f5⟩, rfl, rfl, f7,
    (Violates.refl s).congr f8 f9, fun hw => by rw [← f9] at hw; exact hw, fun _ => f9, f6, f10⟩

theorem sendbyte_accepted {v : Byte} {s t : State} (h : exec (.sendbyte v) s = .next t) : Accepted (.sendbyte v) s t := by
  simp only [exec, execSendbyte, Host.Outcome.next.injEq] at h
  have r := Runs.sendByte s v
  generalize s.sendByte v = u at h r
  subst h
  obtain ⟨es, e1, e2, e3, e4⟩ := r.events
  obtain ⟨f1, f2, f3, f4, f5, f6, f7, f8, f9, f10⟩ := r.fields
  exact ⟨⟨es, e1, e2, fun _ => e3, fun _ _ => e4 rfl⟩, ⟨f1, f2, f3, f4, f5⟩, rfl, rfl, f7,
    (Violates.refl s).congr f8 f9, fun hw => by rw [← f9] at hw; exact hw, fun _ => f9, f6, f10⟩

theorem init_accepted {s t : State} (h : exec .init s = .next t) : Accepted .init s t := by
  simp only [exec, execInit] at h
  split at h
  · split at h
    · cases h
    · next u hu =>
      have r := Runs.initLoop hu
      simp only [Host.Outcome.next.injEq] at h
      subst h
      obtain ⟨es, e1, e2, e3, -⟩ := r.events
      obtain ⟨f1, f2, f3, f4, f5, f6, f7, f8, f9, f10⟩ := r.fields
      exact ⟨⟨es, e1, e2, fun _ => e3, fun _ hi => absurd rfl hi⟩, ⟨f1, f2, f3, f4, f5⟩, rfl, rfl, rfl,
        (initLegality_violates s).congr f8 f9, fun hw => by
          have := initLegality_reasons s hw
          rw [← f9] at this
          exact this, fun hk => f9.trans (initLegality_kept hk), f6, f10⟩
  · cases h

theorem orient_accepted {a : Half} {s t : State} (h : exec (.orient a) s = .next t)
    (ha : argumentError (.orient a) = none) : Accepted (.orient a) s t := by
  have hl : orientLegal a = true := by rw [orientLegal_iff]; intro hc; simp [argumentError, hc] at ha
  simp only [exec, execOrient, hl, ↓reduceIte, Host.Outcome.next.injEq] at h
  have hv := Violates.violateIf s (s.phase != .awake) .orientNotAwake
  rw [bne_ite] at hv
  have r := Runs.sendMadctl (a.setWidth 2) (setOrient (a.setWidth 2)
    (s.violateIf (s.phase != .awake) .orientNotAwake))
  generalize sendMadctl (a.setWidth 2) (setOrient (a.setWidth 2)
    (s.violateIf (s.phase != .awake) .orientNotAwake)) = u at h r
  subst h
  obtain ⟨es, e1, e2, e3, e4⟩ := r.events
  obtain ⟨f1, f2, f3, f4, f5, f6, f7, f8, f9, f10⟩ := r.fields
  exact ⟨⟨es, e1, e2, fun _ => e3, fun _ _ => e4 rfl⟩, ⟨f1, f2, f3, f4, f5⟩, rfl, rfl, f7,
    hv.congr f8 f9, fun hw => by
      show reasonsWf u.violReasons = true
      rw [f9]
      exact reasons_violateIf s (s.phase != .awake) .orientNotAwake hw,
      fun hk => f9.trans (violateIf_kept _ (bne_kept hk)), f6, f10⟩

theorem window_accepted {x1 y1 x2 y2 : Half} {s t : State} (h : exec (.window x1 y1 x2 y2) s = .next t)
    (ha : argumentError (.window x1 y1 x2 y2) = none) : Accepted (.window x1 y1 x2 y2) s t := by
  have hl : windowOrdered x1 y1 x2 y2 = true := by
    rw [windowOrdered_iff]; intro hc; simp [argumentError, hc] at ha
  simp only [exec, execWindow, hl, ↓reduceIte, Host.Outcome.next.injEq] at h
  have hv := window_violates s ⟨x1, y1, x2, y2⟩ .windowNotAwake
  have hw := window_reasons s ⟨x1, y1, x2, y2⟩ .windowNotAwake
  have r := Runs.sendWindow (latchPanel (latchWindow ⟨x1, y1, x2, y2⟩
    (s.violateIf (s.phase != .awake) .windowNotAwake)))
  rw [setWindow] at h
  generalize sendWindow (latchPanel (latchWindow ⟨x1, y1, x2, y2⟩
    (s.violateIf (s.phase != .awake) .windowNotAwake))) = u at h r
  subst h
  obtain ⟨es, e1, e2, e3, e4⟩ := r.events
  obtain ⟨f1, f2, f3, f4, f5, f6, f7, f8, f9, f10⟩ := r.fields
  exact ⟨⟨es, e1, e2, fun _ => e3, fun _ _ => e4 rfl⟩, ⟨f1, f2, f3, f4, f5⟩, rfl, rfl, f7,
    hv.congr f8 f9, fun h0 => by have := hw h0; rw [← f9] at this; exact this,
    fun hk => f9.trans (window_kept _ hk), f6, f10⟩

theorem flush_accepted {x1 y1 x2 y2 : Half} {s t : State} (h : exec (.flush x1 y1 x2 y2) s = .next t)
    (ha : argumentError (.flush x1 y1 x2 y2) = none) : Accepted (.flush x1 y1 x2 y2) s t := by
  have hl : windowOrdered x1 y1 x2 y2 = true := by
    rw [windowOrdered_iff]; intro hc; simp [argumentError, hc] at ha
  simp only [exec, execFlush, hl, ↓reduceIte] at h
  have hv := window_violates s ⟨x1, y1, x2, y2⟩ .flushNotAwake
  have hw := window_reasons s ⟨x1, y1, x2, y2⟩ .flushNotAwake
  have r1 := (Runs.sendWindow (latchPanel (latchWindow ⟨x1, y1, x2, y2⟩
    (s.violateIf (s.phase != .awake) .flushNotAwake)))).trans (Runs.dataMode _)
  rw [setWindow] at h
  generalize (sendWindow (latchPanel (latchWindow ⟨x1, y1, x2, y2⟩
    (s.violateIf (s.phase != .awake) .flushNotAwake)))).dataMode = u at h r1
  split at h
  · cases h
  · next t' ht' =>
    have r2 : Runs false u (loadPixcnt (pixelBytes x1 y1 x2 y2) u) := Runs.write u _ _ _ _ _
    have r := (r1.trans r2).trans (Runs.streamLoop ht')
    simp only [Host.Outcome.next.injEq] at h
    subst h
    obtain ⟨es, e1, e2, e3, e4⟩ := r.events
    obtain ⟨f1, f2, f3, f4, f5, f6, f7, f8, f9, f10⟩ := r.fields
    exact ⟨⟨es, e1, e2, fun _ => e3, fun _ _ => e4 rfl⟩, ⟨f1, f2, f3, f4, f5⟩, rfl, rfl, f7,
      hv.congr f8 f9, fun h0 => by have := hw h0; rw [← f9] at this; exact this,
    fun hk => f9.trans (window_kept _ hk), f6, f10⟩

theorem slpin_accepted {s t : State} (h : exec .slpin s = .next t) : Accepted .slpin s t := by
  simp only [exec, execSlpin, Host.Outcome.next.injEq] at h
  have hv := Violates.violateIf s (s.phase != .awake) .slpinNotAwake
  rw [bne_ite] at hv
  have r := Runs.cmd (s.violateIf (s.phase != .awake) .slpinNotAwake) s.desc.opSlpin
  generalize (s.violateIf (s.phase != .awake) .slpinNotAwake).cmd s.desc.opSlpin = u at h r
  subst h
  obtain ⟨es, e1, e2, e3, e4⟩ := r.events
  obtain ⟨f1, f2, f3, f4, f5, f6, -, f8, f9, f10⟩ := r.fields
  refine ⟨⟨es, e1, e2, fun _ => e3, fun _ _ => e4 rfl⟩, ⟨f1, f2, f3, f4, f5⟩, rfl, rfl, ?_,
    hv.congr f8 f9, fun hw => ?_, fun hk => f9.trans (violateIf_kept _ (bne_kept hk)), f6, f10⟩
  · show s.phase.afterSlpin = _
    cases s.phase <;> rfl
  · have := reasons_violateIf s (s.phase != .awake) .slpinNotAwake hw
    rw [← f9] at this
    exact this

theorem slpout_accepted {s t : State} (h : exec .slpout s = .next t) : Accepted .slpout s t := by
  simp only [exec, execSlpout, Host.Outcome.next.injEq] at h
  have hv := Violates.violateIf s (s.phase != .asleep) .slpoutNotAsleep
  rw [bne_ite] at hv
  have r := Runs.cmd (s.violateIf (s.phase != .asleep) .slpoutNotAsleep) s.desc.opSlpout
  generalize (s.violateIf (s.phase != .asleep) .slpoutNotAsleep).cmd s.desc.opSlpout = u at h r
  subst h
  obtain ⟨es, e1, e2, e3, e4⟩ := r.events
  obtain ⟨f1, f2, f3, f4, f5, f6, -, f8, f9, f10⟩ := r.fields
  refine ⟨⟨es, e1, e2, fun _ => e3, fun _ _ => e4 rfl⟩, ⟨f1, f2, f3, f4, f5⟩, rfl, rfl, ?_,
    hv.congr f8 f9, fun hw => ?_, fun hk => f9.trans (violateIf_kept _ (bne_kept hk)), f6, f10⟩
  · show s.phase.afterSlpout = _
    cases s.phase <;> rfl
  · have := reasons_violateIf s (s.phase != .asleep) .slpoutNotAsleep hw
    rw [← f9] at this
    exact this

theorem hwreset_accepted {s t : State} (h : exec .hwreset s = .next t) : Accepted .hwreset s t := by
  simp only [exec, execHwreset, Host.Outcome.next.injEq] at h
  have hv := Violates.violateIf s (s.phase != .uninitialized) .hwresetAfterInit
  rw [bne_ite] at hv
  have hp : ∀ u : State, ∃ es, (resetPulse u).trace = u.trace ++ es ∧ u.lines.replay es = (resetPulse u).lines ∧
      resetPulse u = { u with lines := (resetPulse u).lines, trace := (resetPulse u).trace } := by
    intro u
    by_cases hr : u.desc.hasReset = true
    · refine ⟨u.lines.driveEvents .rst false ++ ([.delay u.desc.resetLowMs] ++
        ((u.lines.set .rst false).driveEvents .rst true ++ [.delay u.desc.resetHighMs])), ?_, ?_, ?_⟩
      · simp [resetPulse, hr]
      · simp only [Lines.replay_append, Lines.replay_driveEvents]
        simp [resetPulse, hr, Lines.replay, Lines.replay_driveEvents]
      · simp [resetPulse, hr, State.drive, State.delay]
    · exact ⟨[], by simp [resetPulse, hr], by simp [resetPulse, hr, Lines.replay], by simp [resetPulse, hr]⟩
  obtain ⟨es, e1, e2, e3⟩ := hp (s.violateIf (s.phase != .uninitialized) .hwresetAfterInit)
  generalize resetPulse (s.violateIf (s.phase != .uninitialized) .hwresetAfterInit) = u at h e1 e2 e3
  subst h
  have hr : u.violReasons = (s.violateIf (s.phase != .uninitialized) .hwresetAfterInit).violReasons := by rw [e3]
  have hvl : u.viol = (s.violateIf (s.phase != .uninitialized) .hwresetAfterInit).viol := by rw [e3]
  refine ⟨⟨es, e1, e2, fun hi => absurd rfl hi, fun hi => absurd rfl hi⟩, ?_, rfl, rfl, ?_, hv.congr hvl hr,
    fun hw => ?_, fun hk => hr.trans (violateIf_kept _ (bne_kept hk)), ?_, rfl⟩
  · rw [e3]; exact ⟨rfl, rfl, rfl, rfl, rfl⟩
  · cases s.phase <;> rfl
  · have := reasons_violateIf s (s.phase != .uninitialized) .hwresetAfterInit hw
    rw [← hr] at this
    exact this
  · rw [e3]; rfl

/-- What an accepted request does, in any state. -/
theorem exec_accepted {i : Instr} {s t : State} (h : exec i s = .next t) (ha : argumentError i = none) :
    Accepted i s t := by
  cases i with
  | sendbits _ _ => exact sendbits_accepted h ha
  | sendbyte _ => exact sendbyte_accepted h
  | init => exact init_accepted h
  | orient _ => exact orient_accepted h ha
  | window _ _ _ _ => exact window_accepted h ha
  | flush _ _ _ _ => exact flush_accepted h ha
  | slpin => exact slpin_accepted h
  | slpout => exact slpout_accepted h
  | hwreset => exact hwreset_accepted h

/-! ## Memory -/

theorem Memory.read_ofBytes (a : Nat) (bs : List Byte) (k : Nat) :
    Memory.read (Memory.ofBytes a bs) (a + k) = bs[k]? := by
  induction bs generalizing a k with
  | nil => simp [Memory.ofBytes, Memory.read]
  | cons b bs ih =>
    cases k with
    | zero => simp [Memory.ofBytes, Memory.read]
    | succ k =>
      have := ih (a + 1) k
      rw [Nat.add_right_comm] at this
      simp [Memory.ofBytes, Memory.read, Nat.add_assoc] at this ⊢
      simpa [Nat.add_comm 1 k, Nat.add_assoc] using this

/-- Attaching a buffer gives a memory in canonical form. -/
theorem Memory.wf_ofBytes (a : Nat) (bs : List Byte) : Memory.wf (Memory.ofBytes a bs) = true := by
  induction bs generalizing a with
  | nil => rfl
  | cons b bs ih =>
    cases bs with
    | nil => rfl
    | cons c cs =>
      have := ih (a + 1)
      simp [Memory.ofBytes, Memory.wf] at this ⊢
      exact this

end Sys2Proof.Machine
end

