-- ==== Sys2Proof/Laws/Behaviour.lean ====
section
/-! SUPPORT. When a request completes, and the wave each request puts on the lines: from lines at rest, what it
appends starts and ends between frames and keeps the line discipline. -/

namespace Sys2Proof.Machine

/-! ## Completion -/

/-- The stream ends if the buffer has every byte. -/
theorem streamLoop_some {n k : Nat} {s : State} (h : ∀ i, i < n → (pixRead s (k + i)).isSome = true) :
    ∃ t, streamLoop n k s = some t := by
  induction n generalizing k s with
  | zero => exact ⟨s, rfl⟩
  | succ n ih =>
    obtain ⟨b, hb⟩ := Option.isSome_iff_exists.1 (h 0 (by omega))
    rw [Nat.add_zero] at hb
    rw [streamLoop, hb]
    refine ih fun i hi => ?_
    have := h (i + 1) (by omega)
    have hp : (sendPixel b n s).pixbuf = s.pixbuf := dat_pixbuf s b
    simpa [pixRead, hp, Nat.add_assoc, Nat.add_comm 1] using this

theorem sendByte_idx (s : State) (b : Byte) : (s.sendByte b).idx = s.idx := by
  have h := Sends.sendBits s (zext16 b) (n := 8) (by omega)
  unfold State.sendByte
  generalize s.sendBits (zext16 b) 8 = u at h ⊢
  rw [h]

theorem sendParams_idx (row : InitRow) (n : Nat) (s : State) : (sendParams row n s).idx = s.idx := by
  induction n generalizing s with
  | zero => rfl
  | succ n ih =>
    rw [sendParams, ih]
    have h := sendByte_idx s (paramByte row s)
    unfold State.dat
    generalize s.sendByte (paramByte row s) = u at h ⊢
    exact h

theorem runRow_idx (row : InitRow) (s : State) : (runRow row s).idx = s.idx + 1 := by
  have h : (s.cmd row.opcode).idx = s.idx := sendByte_idx (s.drive .dc false) _
  unfold runRow sendRow
  generalize s.cmd row.opcode = u at h ⊢
  have k := sendParams_idx row row.parameterCount { u.dataMode with pidx := 0 }
  simp only
  generalize sendParams row row.parameterCount { u.dataMode with pidx := 0 } = v at k ⊢
  show v.idx + 1 = _
  rw [k, ← h]; rfl

/-- The loop of INIT ends on every table with a sentinel, whatever the lines. -/
theorem initLoop_some {rows : List InitRow} {fuel : Nat} {s : State}
    (hb : InitRow.beforeEnd (s.desc.initTable.drop s.idx) = some rows) (hf : rows.length < fuel) :
    ∃ t, initLoop fuel s = some t := by
  induction fuel generalizing rows s with
  | zero => omega
  | succ fuel ih =>
    cases hd : s.desc.initTable.drop s.idx with
    | nil => simp [hd, InitRow.beforeEnd] at hb
    | cons r rs =>
      rw [hd] at hb
      have hr : tabRow s.desc s.idx = some r := by
        have := congrArg (fun l => l[0]?) hd
        simpa [tabRow] using this
      rcases beforeEnd_cons hb with ⟨h, -⟩ | ⟨hs, rest, hrest, rfl⟩
      · exact ⟨s, by simp [initLoop, hr, h]⟩
      · have hdesc : (runRow r s).desc = s.desc := (Runs.runRow r s).fields.1
        simp only [initLoop, hr, hs, ↓reduceIte]
        refine ih (rows := rest) ?_ (by simpa using hf)
        rw [hdesc, runRow_idx, ← List.tail_drop, hd]; exact hrest

/-! ## Waves of whole requests -/

/-- `t` is reached from `s` by a wave that reads as the frames `fs`. -/
def Waves (s t : State) (fs : List FrameEvent) : Prop :=
  ∃ es, t.trace = s.trace ++ es ∧ Wave s.lines es fs t.lines

theorem Emits.waves {s t : State} {fs : List FrameEvent} (h : Emits s t fs) : Waves s t fs := by
  obtain ⟨es, h, w⟩ := h
  exact ⟨es, by rw [h], w⟩

theorem Waves.appends {s t : State} {fs : List FrameEvent} (h : Waves s t fs) : AppendsFrames s t fs := by
  obtain ⟨es, h, w⟩ := h
  exact ⟨es, h, w.frames, w.lines⟩

theorem Waves.refl (s : State) : Waves s s [] := ⟨[], by simp, Wave.nil _⟩

/-- Of a state that ends a wave, only the lines and `TRACE` matter. -/
theorem Waves.congr {s t u : State} {fs : List FrameEvent} (h : Waves s t fs) (hl : u.lines = t.lines)
    (ht : u.trace = t.trace) : Waves s u fs := by
  obtain ⟨es, h, w⟩ := h
  exact ⟨es, by rw [ht, h], by rw [hl]; exact w⟩

/-- A stream that ends sends one data frame a byte. -/
theorem streamLoop_bytes {n k : Nat} {s t : State} (h : streamLoop n k s = some t) :
    ∃ bytes : List Byte, bytes.length = n ∧ ∀ i, i < n → pixRead s (k + i) = bytes[i]? := by
  induction n generalizing k s with
  | zero => exact ⟨[], rfl, by simp⟩
  | succ n ih =>
    rw [streamLoop] at h
    split at h
    · cases h
    · next b hb =>
      obtain ⟨bytes, hl, hr⟩ := ih h
      have hp : (sendPixel b n s).pixbuf = s.pixbuf := dat_pixbuf s b
      refine ⟨b :: bytes, by simp [hl], fun i hi => ?_⟩
      cases i with
      | zero => simpa using hb
      | succ i =>
        have := hr i (by omega)
        simpa [pixRead, hp, Nat.add_assoc, Nat.add_comm 1] using this

theorem init_waves {s t : State} {rows : List InitRow} (h : execInit s = .next t) (hc : s.lines.cs = true)
    (hb : InitRow.beforeEnd s.desc.initTable = some rows) :
    Waves s t (rows.flatMap (rowFrames s.desc s.orient.toNat)) ∧ t.lines.cs = true := by
  unfold execInit at h
  split at h
  · next hw =>
    obtain ⟨rows', hb', hr⟩ := rowOk_of_wf hw
    rw [hb] at hb'
    cases hb'
    have hb0 : InitRow.beforeEnd (s.initLegality.desc.initTable.drop 0) = some rows := hb
    obtain ⟨u, hu, h1, -, -, h4⟩ := initLoop_emits rows s.desc.initTable.length { s.initLegality with idx := 0 } hc
      hb0 (beforeEnd_length hb) hr
    rw [hu] at h
    cases h
    exact ⟨(show Waves s u _ from h4.waves).congr rfl rfl, h1⟩
  · cases h

theorem flush_waves {x1 y1 x2 y2 : Half} {s t : State} (h : execFlush x1 y1 x2 y2 s = .next t)
    (ho : windowOrdered x1 y1 x2 y2 = true) (hc : s.lines.cs = true) :
    ∃ bytes : List Byte, bytes.length = pixelBytes x1 y1 x2 y2 ∧
      (∀ k, k < bytes.length → Memory.read s.pixbuf k = bytes[k]?) ∧
      Waves s t (requestFrames s x1 y1 x2 y2 ++ bytes.map .dataByte) ∧ t.lines.cs = true := by
  have e := setWindow_emits (s := s.violateIf (s.phase != .awake) .flushNotAwake) ⟨x1, y1, x2, y2⟩ hc
  have rl := sendWindow_lines (latchPanel (latchWindow ⟨x1, y1, x2, y2⟩
    (s.violateIf (s.phase != .awake) .flushNotAwake)))
  rw [← setWindow] at rl
  simp only [execFlush, ho, ↓reduceIte] at h
  generalize setWindow ⟨x1, y1, x2, y2⟩ (s.violateIf (s.phase != .awake) .flushNotAwake) = u at e rl h
  have e2 := dataMode_emits (s := u) rl.1
  have hN := pixelBytes_lt x1 y1 x2 y2
  have hst : stream (loadPixcnt (pixelBytes x1 y1 x2 y2) u.dataMode) =
      streamLoop (pixelBytes x1 y1 x2 y2) 0 (loadPixcnt (pixelBytes x1 y1 x2 y2) u.dataMode) := by
    unfold stream
    rw [show (loadPixcnt (pixelBytes x1 y1 x2 y2) u.dataMode).pixcnt = BitVec.ofNat 34 (pixelBytes x1 y1 x2 y2) from rfl,
      BitVec.toNat_ofNat, Nat.mod_eq_of_lt hN]
  rw [hst] at h
  split at h
  · cases h
  · next v hv =>
    have hpx : ∀ k, pixRead (loadPixcnt (pixelBytes x1 y1 x2 y2) u.dataMode) k = Memory.read s.pixbuf k := by
      intro k
      have : u.pixbuf = s.pixbuf := e.pixbuf
      simp [pixRead, loadPixcnt, State.dataMode, this]
    obtain ⟨bytes, hl, hr⟩ := streamLoop_bytes hv
    obtain ⟨v', hv', hr', he⟩ := streamLoop_emits bytes 0 (loadPixcnt (pixelBytes x1 y1 x2 y2) u.dataMode)
      ⟨rl.1, rfl⟩ (fun i hi => hr i (by omega))
    rw [hl] at hv'
    rw [hv] at hv'
    cases hv'
    have E := ((e.trans e2).withPixcnt v.pixcnt).trans he
    rw [List.append_nil] at E
    cases h
    refine ⟨bytes, hl, fun k hk => ?_, (show Waves s v _ from E.waves).congr rfl rfl, hr'.1⟩
    have := hr k (by omega)
    rw [Nat.zero_add, hpx] at this
    exact this

/-- The reset line rests high where it exists (spec/10_state.md R37). -/
def RstIdle (s : State) : Prop := s.lines.rst = if s.desc.hasReset then some true else none

/-- Every request that completes puts a wave on lines at rest and leaves them at rest. -/
theorem exec_waves {i : Instr} {s t : State} (h : exec i s = .next t) (hc : s.lines.cs = true) (hr : RstIdle s) :
    (∃ fs, Waves s t fs) ∧ t.lines.cs = true ∧ t.lines.rst = s.lines.rst := by
  have hrst : ∀ {u : State} {d : Bool}, Runs d s u → u.lines.rst = s.lines.rst := by
    intro u d r
    obtain ⟨es, -, e2, e3, -⟩ := r.events
    rw [← e2]; exact Lines.replay_rst _ _ e3
  cases i with
  | sendbits v n =>
    simp only [exec, execSendbits] at h
    split at h
    · next hl =>
      rw [bitCountLegal_iff] at hl
      cases h
      have e := sendBits_emits v (n := n.toNat) (by omega) (by omega) hc
      have l := sendBits_lines (s := s) v (n := n.toNat) (by omega) (by omega)
      refine ⟨⟨_, e.waves.congr rfl rfl⟩, ?_, ?_⟩
      · show (s.sendBits v n.toNat).lines.cs = true
        rw [l]; rfl
      · have := hrst (Runs.sendBits s v n.toNat)
        generalize s.sendBits v n.toNat = u at this ⊢
        exact this
    · cases h; exact ⟨⟨_, (Waves.refl s).congr rfl rfl⟩, hc, rfl⟩
  | sendbyte v =>
    simp only [exec, execSendbyte] at h
    cases h
    refine ⟨⟨_, (sendByte_emits (s := s) v hc).waves.congr rfl rfl⟩, ?_, ?_⟩
    · show (s.sendByte v).lines.cs = true
      rw [sendByte_lines]; rfl
    · have := hrst (Runs.sendByte s v)
      generalize s.sendByte v = u at this ⊢
      exact this
  | init =>
    have hw : s.desc.wf = true := by
      simp only [exec, execInit] at h
      split at h
      · assumption
      · cases h
    obtain ⟨rows, hb, -⟩ := rowOk_of_wf hw
    obtain ⟨w, h1⟩ := init_waves h hc hb
    obtain ⟨es, -, e2, e3, -⟩ := (exec_accepted h rfl).events
    exact ⟨⟨_, w⟩, h1, by rw [← e2]; exact Lines.replay_rst _ _ (e3 (by simp))⟩
  | orient a =>
    simp only [exec, execOrient] at h
    split at h
    · cases h
      have e := sendMadctl_emits (s := setOrient (a.setWidth 2) (s.violateIf (s.phase != .awake) .orientNotAwake))
        (a.setWidth 2) hc
      have rd := sendMadctl_ready (a.setWidth 2) (setOrient (a.setWidth 2)
        (s.violateIf (s.phase != .awake) .orientNotAwake))
      obtain ⟨es, -, e2, e3, -⟩ := (Runs.sendMadctl (a.setWidth 2) (setOrient (a.setWidth 2)
        (s.violateIf (s.phase != .awake) .orientNotAwake))).events
      exact ⟨⟨_, (show Waves s _ _ from e.waves).congr rfl rfl⟩, rd.1,
        (congrArg Lines.rst e2).symm.trans (Lines.replay_rst _ _ e3)⟩
    · cases h; exact ⟨⟨_, (Waves.refl s).congr rfl rfl⟩, hc, rfl⟩
  | window x1 y1 x2 y2 =>
    simp only [exec, execWindow] at h
    split at h
    · have e := setWindow_emits (s := s.violateIf (s.phase != .awake) .windowNotAwake) ⟨x1, y1, x2, y2⟩ hc
      have rl := sendWindow_lines (latchPanel (latchWindow ⟨x1, y1, x2, y2⟩
        (s.violateIf (s.phase != .awake) .windowNotAwake)))
      obtain ⟨es, -, e2, e3, -⟩ := (Runs.sendWindow (latchPanel (latchWindow ⟨x1, y1, x2, y2⟩
        (s.violateIf (s.phase != .awake) .windowNotAwake)))).events
      rw [setWindow] at e h
      generalize sendWindow (latchPanel (latchWindow ⟨x1, y1, x2, y2⟩
        (s.violateIf (s.phase != .awake) .windowNotAwake))) = u at e rl e2 h
      cases h
      exact ⟨⟨_, (show Waves s u _ from e.waves).congr rfl rfl⟩, rl.1,
        (congrArg Lines.rst e2).symm.trans (Lines.replay_rst _ _ e3)⟩
    · cases h; exact ⟨⟨_, (Waves.refl s).congr rfl rfl⟩, hc, rfl⟩
  | flush x1 y1 x2 y2 =>
    by_cases ho : windowOrdered x1 y1 x2 y2 = true
    · obtain ⟨bytes, -, -, w, h1⟩ := flush_waves h ho hc
      have ha : argumentError (.flush x1 y1 x2 y2) = none := by
        rw [windowOrdered_iff] at ho; simp only [argumentError, ho, ↓reduceIte]
      obtain ⟨es, -, e2, e3, -⟩ := (exec_accepted h ha).events
      exact ⟨⟨_, w⟩, h1, by rw [← e2]; exact Lines.replay_rst _ _ (e3 (by simp))⟩
    · simp only [exec, execFlush, ho, Bool.false_eq_true, ↓reduceIte] at h
      cases h
      exact ⟨⟨_, (Waves.refl s).congr rfl rfl⟩, hc, rfl⟩
  | slpin =>
    simp only [exec, execSlpin] at h
    cases h
    have e := cmd_emits (s := s.violateIf (s.phase != .awake) .slpinNotAwake) s.desc.opSlpin hc
    have l := cmd_lines (s.violateIf (s.phase != .awake) .slpinNotAwake) s.desc.opSlpin
    obtain ⟨es, -, e2, e3, -⟩ := (Runs.cmd (s.violateIf (s.phase != .awake) .slpinNotAwake) s.desc.opSlpin).events
    exact ⟨⟨_, (show Waves s _ _ from e.waves).congr rfl rfl⟩, congrArg Lines.cs l,
      (congrArg Lines.rst e2).symm.trans (Lines.replay_rst _ _ e3)⟩
  | slpout =>
    simp only [exec, execSlpout] at h
    cases h
    have e := cmd_emits (s := s.violateIf (s.phase != .asleep) .slpoutNotAsleep) s.desc.opSlpout hc
    have l := cmd_lines (s.violateIf (s.phase != .asleep) .slpoutNotAsleep) s.desc.opSlpout
    obtain ⟨es, -, e2, e3, -⟩ := (Runs.cmd (s.violateIf (s.phase != .asleep) .slpoutNotAsleep) s.desc.opSlpout).events
    exact ⟨⟨_, (show Waves s _ _ from e.waves).congr rfl rfl⟩, congrArg Lines.cs l,
      (congrArg Lines.rst e2).symm.trans (Lines.replay_rst _ _ e3)⟩
  | hwreset =>
    simp only [exec, execHwreset] at h
    cases h
    unfold RstIdle at hr
    by_cases hx : s.desc.hasReset = true
    · rw [hx] at hr
      obtain ⟨hs, hl⟩ := resetPulse_sends (s := s.violateIf (s.phase != .uninitialized) .hwresetAfterInit) hx hr
      have w := Emits.of_sends hs (pulse_wave s.desc hc hr)
      exact ⟨⟨_, (show Waves s _ _ from w.waves).congr rfl rfl⟩, (congrArg Lines.cs hl).trans hc,
        congrArg Lines.rst hl⟩
    · have hp : resetPulse (s.violateIf (s.phase != .uninitialized) .hwresetAfterInit) =
          s.violateIf (s.phase != .uninitialized) .hwresetAfterInit := by simp [resetPulse, hx]
      rw [hp]
      exact ⟨⟨_, (Waves.refl s).congr rfl rfl⟩, hc, rfl⟩

end Sys2Proof.Machine
end

