-- ==== Sys2Proof/Laws/Aside.lean ====
section
/-! SUPPORT. Nothing a request sends depends on the ghost state (spec/10_state.md R27 to R29) or, but for the pixel
bytes it reads, on the attached buffer: the shared operations commute with replacing those fields. -/

namespace Sys2Proof.Machine

/-- Values for the ghost state and the buffer. -/
structure Aside where
  pixbuf : Memory
  phase : Phase
  viol : Bool
  violReasons : List Violation
  rstdone : Bool

/-- `s` with the ghost state and the buffer of `g`. -/
def State.aside (g : Aside) (s : State) : State :=
  { s with pixbuf := g.pixbuf, phase := g.phase, viol := g.viol, violReasons := g.violReasons, rstdone := g.rstdone }

theorem aside_drive (g : Aside) (s : State) (l : Line) (v : Level) : (s.aside g).drive l v = (s.drive l v).aside g := rfl

theorem aside_sendBit (g : Aside) (s : State) (i : Nat) : (s.aside g).sendBit i = (s.sendBit i).aside g := rfl

theorem aside_shiftOut (g : Aside) (s : State) (n : Nat) :
    State.shiftOut n (s.aside g) = (State.shiftOut n s).aside g := by
  induction n generalizing s with
  | zero => rfl
  | succ n ih => rw [State.shiftOut, aside_sendBit, ih]; rfl

theorem aside_sendBits (g : Aside) (s : State) (v : Half) (n : Nat) :
    (s.aside g).sendBits v n = (s.sendBits v n).aside g := by
  show ((State.shiftOut _ (((s.loadShift v n).drive .cs false).aside g))).drive .cs true = _
  rw [aside_shiftOut, aside_drive]; rfl

theorem aside_sendByte (g : Aside) (s : State) (b : Byte) : (s.aside g).sendByte b = (s.sendByte b).aside g :=
  aside_sendBits g s _ 8

theorem aside_dat (g : Aside) (s : State) (b : Byte) : (s.aside g).dat b = (s.dat b).aside g :=
  aside_sendBits g s _ 8

theorem aside_cmd (g : Aside) (s : State) (b : Byte) : (s.aside g).cmd b = (s.cmd b).aside g := by
  unfold State.cmd; rw [aside_drive, aside_sendByte]

theorem aside_dataMode (g : Aside) (s : State) : (s.aside g).dataMode = s.dataMode.aside g := rfl

theorem aside_open (g : Aside) (s : State) (b : Byte) : ((s.aside g).cmd b).dataMode = (s.cmd b).dataMode.aside g := by
  rw [aside_cmd, aside_dataMode]

theorem aside_sendMadctl (g : Aside) (k : BitVec 2) (s : State) :
    sendMadctl k (s.aside g) = (sendMadctl k s).aside g := by
  unfold sendMadctl
  rw [aside_open, aside_dat]; rfl

theorem aside_sendRange (g : Aside) (op : Byte) (v0 v1 : Half) (s : State) :
    sendRange op v0 v1 (s.aside g) = (sendRange op v0 v1 s).aside g := by
  unfold sendRange
  rw [aside_open, aside_dat, aside_dat, aside_dat, aside_dat]

theorem aside_sendWindow (g : Aside) (s : State) : sendWindow (s.aside g) = (sendWindow s).aside g := by
  have h := aside_sendRange g s.desc.opCaset s.col0 s.col1 s
  simp only [sendWindow]
  rw [show (s.aside g).desc = s.desc from rfl, show (s.aside g).col0 = s.col0 from rfl,
    show (s.aside g).col1 = s.col1 from rfl, h]
  generalize sendRange s.desc.opCaset s.col0 s.col1 s = t
  rw [show (t.aside g).desc = t.desc from rfl, show (t.aside g).row0 = t.row0 from rfl,
    show (t.aside g).row1 = t.row1 from rfl, aside_sendRange]
  generalize sendRange t.desc.opRaset t.row0 t.row1 t = u
  rw [show (u.aside g).desc = u.desc from rfl, aside_cmd]

theorem aside_sendParams (g : Aside) (row : InitRow) (n : Nat) (s : State) :
    sendParams row n (s.aside g) = (sendParams row n s).aside g := by
  induction n generalizing s with
  | zero => rfl
  | succ n ih =>
    rw [sendParams, sendParams, show paramByte row (s.aside g) = paramByte row s from rfl, aside_dat]
    generalize s.dat (paramByte row s) = u
    exact ih { u with pidx := u.pidx + 1 }

theorem aside_runRow (g : Aside) (row : InitRow) (s : State) :
    runRow row (s.aside g) = (runRow row s).aside g := by
  unfold runRow sendRow
  rw [aside_open]
  generalize (s.cmd row.opcode).dataMode = u
  have h := aside_sendParams g row row.parameterCount { u with pidx := 0 }
  simp only
  rw [show ({ u.aside g with pidx := 0 } : State) = ({ u with pidx := 0 } : State).aside g from rfl, h]
  rfl

theorem aside_initLoop (g : Aside) (fuel : Nat) (s : State) :
    initLoop fuel (s.aside g) = (initLoop fuel s).map (State.aside g) := by
  induction fuel generalizing s with
  | zero => rfl
  | succ fuel ih =>
    simp only [initLoop]
    rw [show (s.aside g).desc = s.desc from rfl, show (s.aside g).idx = s.idx from rfl]
    cases tabRow s.desc s.idx with
    | none => rfl
    | some row =>
      simp only
      split
      · rfl
      · rw [aside_runRow, ih]

/-- The stream, if the other buffer has the same bytes where the stream reads. -/
theorem aside_streamLoop (g : Aside) (n k : Nat) (s : State)
    (h : ∀ i, i < n → Memory.read g.pixbuf (k + i) = pixRead s (k + i)) :
    streamLoop n k (s.aside g) = (streamLoop n k s).map (State.aside g) := by
  induction n generalizing k s with
  | zero => rfl
  | succ n ih =>
    have h0 : pixRead (s.aside g) k = pixRead s k := h 0 (by omega)
    rw [streamLoop, streamLoop, h0]
    cases pixRead s k with
    | none => rfl
    | some b =>
      have hs : sendPixel b n (s.aside g) = (sendPixel b n s).aside g := by
        unfold sendPixel; rw [aside_dat]; rfl
      simp only
      rw [hs]
      refine ih (k + 1) _ fun i hi => ?_
      have hp : (sendPixel b n s).pixbuf = s.pixbuf := dat_pixbuf s b
      have := h (i + 1) (by omega)
      simpa [pixRead, hp, Nat.add_assoc, Nat.add_comm 1] using this

end Sys2Proof.Machine
end

