-- ==== Sys2Proof/Laws/Assembler.lean ====
section
/-! SUPPORT. The assembler emits only words of the encoder (spec/30_encoding.md R94, R107): what one line can give. -/

namespace Sys2Proof.Machine

/-- A request built from fields carries the word with those fields. -/
theorem asmRequest_word {op : Byte} {a b c d : Except AsmError Half} {pix : List Byte} {rs : List Request}
    (h : asmRequest op a b c d pix = .ok rs) :
    ∃ va vb vc vd, a = .ok va ∧ b = .ok vb ∧ c = .ok vc ∧ d = .ok vd ∧ rs = [⟨reqWord op va vb vc vd, pix⟩] := by
  unfold asmRequest at h
  split at h
  · exact ⟨_, _, _, _, rfl, rfl, rfl, rfl, (Except.ok.inj h).symm⟩
  · cases h

/-- SENDBYTE's field is a byte with zeros above it. -/
theorem byteOperand_byte {cs : List Char} {v : Half} (h : byteOperand cs = .ok v) : ∃ b : Byte, v = b.setWidth 16 := by
  unfold byteOperand at h
  split at h
  · cases h
  · exact ⟨_, (Except.ok.inj h).symm⟩

/-- Every request of `rs` carries a word of the encoder. -/
def Encoded (rs : List Request) : Prop := ∀ r ∈ rs, ∃ i, r.word = encode i

theorem Encoded.one {w : ReqWord} {pix : List Byte} (i : Instr) (h : w = encode i) : Encoded [⟨w, pix⟩] := by
  intro r hr
  rw [List.mem_singleton.1 hr]
  exact ⟨i, h⟩

theorem asmBare_encoded {m : List Char} {rs : List Request} (h : asmBare m = .ok rs) : Encoded rs := by
  have hw : ∀ {op : Byte} (i : Instr), asmRequest op (.ok 0) (.ok 0) (.ok 0) (.ok 0) [] = .ok rs →
      reqWord op 0 0 0 0 = encode i → Encoded rs := by
    intro op i h hi
    cases h
    exact Encoded.one i hi
  unfold asmBare at h
  simp only at h
  split at h
  · exact hw .init h rfl
  split at h
  · exact hw .slpin h rfl
  split at h
  · exact hw .slpout h rfl
  split at h
  · exact hw .hwreset h rfl
  split at h
  · cases h
    intro r hr
    simp only [powerOn, List.mem_cons, List.not_mem_nil, or_false] at hr
    rcases hr with rfl | rfl
    · exact ⟨.hwreset, rfl⟩
    · exact ⟨.init, rfl⟩
  · cases h

/-- What one line gives. -/
theorem asmLine_encoded {ts : List Tok} {rs : List Request} (h : asmLine ts = .ok rs) : Encoded rs := by
  unfold asmLine at h
  split at h
  · cases h; intro r hr; cases hr
  · exact asmBare_encoded h
  · split at h
    · obtain ⟨va, vb, vc, vd, ha, hb, hc, hd, rfl⟩ := asmRequest_word h
      obtain ⟨b, rfl⟩ := byteOperand_byte ha
      cases hb; cases hc; cases hd
      exact Encoded.one (.sendbyte b) rfl
    · split at h
      · obtain ⟨va, vb, vc, vd, -, hb, hc, hd, rfl⟩ := asmRequest_word h
        cases hb; cases hc; cases hd
        exact Encoded.one (.orient va) rfl
      · cases h
  · split at h
    · obtain ⟨va, vb, vc, vd, -, -, hc, hd, rfl⟩ := asmRequest_word h
      cases hc; cases hd
      exact Encoded.one (.sendbits va vb) rfl
    · cases h
  · split at h
    · obtain ⟨va, vb, vc, vd, -, -, -, -, rfl⟩ := asmRequest_word h
      exact Encoded.one (.window va vb vc vd) rfl
    · cases h
  · split at h
    · split at h
      · cases h
      · obtain ⟨va, vb, vc, vd, -, -, -, -, rfl⟩ := asmRequest_word h
        exact Encoded.one (.flush va vb vc vd) rfl
    · cases h
  · cases h

end Sys2Proof.Machine
end

