-- ==== Sys2Proof/Laws/Encoding.lean ====
section
/-! SUPPORT. The fields of a request word read back (spec/30_encoding.md R90). -/

namespace Sys2Proof

theorem reqOp_reqWord (op : Byte) (a b c d : Half) : reqOp (reqWord op a b c d) = op := by
  unfold reqOp reqWord
  apply BitVec.eq_of_getLsbD_eq
  intro i hi
  rw [BitVec.getLsbD_extractLsb']
  simp only [BitVec.getLsbD_append]
  have e : ¬ 64 + i < 16 ∧ ¬ 64 + i - 16 < 16 ∧ ¬ 64 + i - 16 - 16 < 16 ∧ ¬ 64 + i - 16 - 16 - 16 < 16 := by omega
  have h2 : 64 + i - 16 - 16 - 16 - 16 = i := by omega
  simp [hi, e.1, e.2.1, e.2.2.1, e.2.2.2, h2]

theorem reqA_reqWord (op : Byte) (a b c d : Half) : reqA (reqWord op a b c d) = a := by
  unfold reqA reqWord
  apply BitVec.eq_of_getLsbD_eq
  intro i hi
  rw [BitVec.getLsbD_extractLsb']
  simp only [BitVec.getLsbD_append]
  have e : ¬ 48 + i < 16 ∧ ¬ 48 + i - 16 < 16 ∧ ¬ 48 + i - 16 - 16 < 16 ∧ 48 + i - 16 - 16 - 16 < 16 := by omega
  have h2 : 48 + i - 16 - 16 - 16 = i := by omega
  simp [hi, e.1, e.2.1, e.2.2.1, h2]

theorem reqB_reqWord (op : Byte) (a b c d : Half) : reqB (reqWord op a b c d) = b := by
  unfold reqB reqWord
  apply BitVec.eq_of_getLsbD_eq
  intro i hi
  rw [BitVec.getLsbD_extractLsb']
  simp only [BitVec.getLsbD_append]
  have e : ¬ 32 + i < 16 ∧ ¬ 32 + i - 16 < 16 ∧ 32 + i - 16 - 16 < 16 := by omega
  have h2 : 32 + i - 16 - 16 = i := by omega
  simp [hi, e.1, e.2.1, h2]

theorem reqC_reqWord (op : Byte) (a b c d : Half) : reqC (reqWord op a b c d) = c := by
  unfold reqC reqWord
  apply BitVec.eq_of_getLsbD_eq
  intro i hi
  rw [BitVec.getLsbD_extractLsb']
  simp only [BitVec.getLsbD_append]
  have e : ¬ 16 + i < 16 := by omega
  simp [hi, e]

theorem reqD_reqWord (op : Byte) (a b c d : Half) : reqD (reqWord op a b c d) = d := by
  unfold reqD reqWord
  apply BitVec.eq_of_getLsbD_eq
  intro i hi
  rw [BitVec.getLsbD_extractLsb']
  simp only [BitVec.getLsbD_append]
  simp [hi]

end Sys2Proof
end

