-- ==== Sys2Proof/Laws/PerInstr.lean ====
section
/-! SUPPORT. The family WordShape: what the word of each request is made of (spec/30_encoding.md R90, R92, R94). -/

namespace Sys2Proof.Laws.WordShape

/-- Each field of the word of a request: `op` is the opcode of the table, an operand stands in its own field, and
every field the operation does not use is zero. -/
def Statement (i : Instr) : Prop :=
  reqOp (encode i) = opcodeOf i ∧
  match i with
  | .sendbits v n => reqA (encode i) = v ∧ reqB (encode i) = n ∧ reqC (encode i) = 0 ∧ reqD (encode i) = 0
  | .sendbyte v =>
    reqA (encode i) = v.setWidth 16 ∧ reqB (encode i) = 0 ∧ reqC (encode i) = 0 ∧ reqD (encode i) = 0
  | .init => reqA (encode i) = 0 ∧ reqB (encode i) = 0 ∧ reqC (encode i) = 0 ∧ reqD (encode i) = 0
  | .orient k => reqA (encode i) = k ∧ reqB (encode i) = 0 ∧ reqC (encode i) = 0 ∧ reqD (encode i) = 0
  | .window x1 y1 x2 y2 =>
    reqA (encode i) = x1 ∧ reqB (encode i) = y1 ∧ reqC (encode i) = x2 ∧ reqD (encode i) = y2
  | .flush x1 y1 x2 y2 =>
    reqA (encode i) = x1 ∧ reqB (encode i) = y1 ∧ reqC (encode i) = x2 ∧ reqD (encode i) = y2
  | .slpin => reqA (encode i) = 0 ∧ reqB (encode i) = 0 ∧ reqC (encode i) = 0 ∧ reqD (encode i) = 0
  | .slpout => reqA (encode i) = 0 ∧ reqB (encode i) = 0 ∧ reqC (encode i) = 0 ∧ reqD (encode i) = 0
  | .hwreset => reqA (encode i) = 0 ∧ reqB (encode i) = 0 ∧ reqC (encode i) = 0 ∧ reqD (encode i) = 0

/-- The fields of any word built from fields. -/
theorem fields (op : Byte) (a b c d : Half) :
    reqOp (reqWord op a b c d) = op ∧ reqA (reqWord op a b c d) = a ∧ reqB (reqWord op a b c d) = b ∧
      reqC (reqWord op a b c d) = c ∧ reqD (reqWord op a b c d) = d :=
  ⟨reqOp_reqWord _ _ _ _ _, reqA_reqWord _ _ _ _ _, reqB_reqWord _ _ _ _ _, reqC_reqWord _ _ _ _ _,
    reqD_reqWord _ _ _ _ _⟩

theorem sendbits (v n : Half) : Statement (.sendbits v n) := fields _ _ _ _ _
theorem sendbyte (v : Byte) : Statement (.sendbyte v) := fields _ _ _ _ _
theorem init : Statement .init := fields _ _ _ _ _
theorem orient (k : Half) : Statement (.orient k) := fields _ _ _ _ _
theorem window (x1 y1 x2 y2 : Half) : Statement (.window x1 y1 x2 y2) := fields _ _ _ _ _
theorem flush (x1 y1 x2 y2 : Half) : Statement (.flush x1 y1 x2 y2) := fields _ _ _ _ _
theorem slpin : Statement .slpin := fields _ _ _ _ _
theorem slpout : Statement .slpout := fields _ _ _ _ _
theorem hwreset : Statement .hwreset := fields _ _ _ _ _

end Sys2Proof.Laws.WordShape
end

