-- ==== Sys2Proof/Tests/Slice0.lean ====
section
/-! SUPPORT. Tests: expected results are those of spec/95_test_vectors.md (the vector is named in each docstring),
or hand calculation from the encoding rules; and a witness for the hypotheses of each statement. -/

namespace Sys2Proof.Tests

open Sys2Proof.Machine

/-! ## Helpers -/

/-- The start state "Awake" of spec/95_test_vectors.md. -/
def awake : State := { State.reset with phase := .awake, rstdone := true }

/-- Awake with an orientation code. -/
def awakeAt (k : BitVec 2) : State := { awake with orient := k }

/-- The start state with another phase. -/
def inPhase (p : Phase) : State := { State.reset with phase := p }

/-- One step on a state with a request presented; none where it does not answer a next state. -/
def run (s : State) (w : ReqWord) (pix : List Byte) : Option State :=
  match step (s.present ⟨w, pix⟩) with
  | .next t => some t
  | .fault _ => none
  | .refused _ => none

/-- The frames a step appends. -/
def framesBy (s t : State) : List FrameEvent := framesFrom s.lines (t.trace.drop s.trace.length)

/-- The frames, the number of events and the response of one request. -/
def seen (s : State) (w : ReqWord) (pix : List Byte) : Option (List FrameEvent × Nat × Rsp) :=
  (run s w pix).map fun t => (framesBy s t, t.trace.length - s.trace.length, t.rsp)

/-- Does the step refuse, and how? -/
def refusal (s : State) : Option Refusal :=
  match step s with
  | .next _ => none
  | .fault _ => none
  | .refused r => some r

/-- Command and data frames of a byte. -/
def c (b : Byte) : FrameEvent := .cmdByte b
def d (b : Byte) : FrameEvent := .dataByte b

/-- The response OK. -/
def ok : Rsp := ⟨0, 0⟩

/-- One bit on the lines: clock low, the data line if it changes, clock high. -/
def bit : List Event := [.line .clk false, .line .clk true]
def bitTo (v : Level) : List Event := [.line .clk false, .line .mosi v, .line .clk true]

/-! ## WellFormed: an ill-formed descriptor for each check, refused -/

/-- The example descriptor with another table. -/
def withTable (rows : List InitRow) : Desc := { Config.exampleDesc with initTable := rows }

def stop : InitRow := Config.row 0x00 [] .stop

theorem test_wf_example : Config.exampleDesc.wf = true := by decide
theorem test_wf_no_sentinel : (withTable [Config.row 0x11 [] (.count 0 true)]).wf = false := by decide
theorem test_wf_count_16 : (withTable [Config.row 0xAB [] (.count 16 true), stop]).wf = false := by decide
theorem test_wf_count_15 : (withTable [Config.row 0xAB [] (.count 15 true), stop]).wf = true := by decide
theorem test_wf_storage : (withTable [⟨0xAB, [0x01], .count 1 false⟩, stop]).wf = false := by decide
theorem test_wf_hook_twice :
    (withTable [Config.row 0x36 [] (.count 1 false), Config.row 0x36 [] (.count 1 false), stop]).wf = false := by decide
theorem test_wf_hook_count : (withTable [Config.row 0x36 [] (.count 2 false), stop]).wf = false := by decide
theorem test_wf_hook_after_sentinel :
    (withTable [Config.row 0x36 [] (.count 1 false), stop, Config.row 0x36 [] (.count 2 false)]).wf = true := by decide
theorem test_wf_reset_low : ({ Config.exampleDesc with resetLowMs := 99 } : Desc).wf = false := by decide
theorem test_wf_reset_high : ({ Config.exampleDesc with resetHighMs := 99 } : Desc).wf = false := by decide
theorem test_wf_settle : ({ Config.exampleDesc with settleMs := 99 } : Desc).wf = false ∧
    ({ Config.exampleDesc with settleMs := 101 } : Desc).wf = false := by decide

/-- I7: the model refuses a table without a sentinel. -/
theorem test_ill_formed_refused :
    refusal (State.resetWith (withTable [Config.row 0x11 [] (.count 0 true)])) = some .illFormedDescriptor := by decide

/-! ## Decode: words written out from spec/30_encoding.md R90 -/

theorem test_decode_sendbits : decode 0x0101A5000800000000 = .ok (.sendbits 0x1A5 8) := by decide
/-- T4: `a[15:8]` is ignored. -/
theorem test_decode_sendbyte : decode 0x0201A5000000000000 = .ok (.sendbyte 0xA5) := by decide
theorem test_decode_init : decode 0x030000000000000000 = .ok .init := by decide
/-- E5: the unused operand fields are ignored. -/
theorem test_decode_orient : decode 0x040002DEADBEEF1234 = .ok (.orient 2) := by decide
theorem test_decode_window : decode 0x05123400FF12340100 = .ok (.window 0x1234 0x00FF 0x1234 0x0100) := by decide
/-- E8. -/
theorem test_decode_flush : decode 0x0600000000007F007F = .ok (.flush 0 0 127 127) := by decide
/-- E6. -/
theorem test_decode_slpin : decode 0x07FFFFFFFFFFFFFFFF = .ok .slpin := by decide
theorem test_decode_slpout : decode 0x080000000000000000 = .ok .slpout := by decide
theorem test_decode_hwreset : decode 0x090000000000000000 = .ok .hwreset := by decide
/-- E1, E2, E3: reserved opcodes. -/
theorem test_decode_reserved : decode 0x000000000000000000 = .error (.reservedOp 0x00) ∧
    decode 0x0A0000000000000000 = .error (.reservedOp 0x0A) ∧
    decode 0xFF0000000000000000 = .error (.reservedOp 0xFF) := by decide
/-- R94, R107: zeros in `a[15:8]` of SENDBYTE, where vector T4 prints the operand whole; both words decode alike. -/
theorem test_assemble_sendbyte : assemble "SENDBYTE 0xA5" = .ok [⟨0x0200A5000000000000, []⟩] ∧
    assemble "SENDBYTE 0x1A5" = .ok [⟨0x0200A5000000000000, []⟩] := by decide
theorem test_table_word : decodeTableWord 72 0x040003000000000000 = some (.orient 3) := by decide
theorem test_table_word_reserved : decodeTableWord 72 0x0A0000000000000000 = none := by decide

/-! ## Packed rows (section 2.7) -/

theorem test_row_b6 : encodeRow (Config.row 0xB6 [0x00, 0x20] (.count 2 false)) =
    [0xB6, 0x00, 0x20, 0, 0, 0, 0, 0, 0, 0, 0, 0, 0, 0, 0, 0, 0, 0x02] := by decide
theorem test_row_11 : encodeRow (Config.row 0x11 [] (.count 0 true)) =
    [0x11, 0, 0, 0, 0, 0, 0, 0, 0, 0, 0, 0, 0, 0, 0, 0, 0, 0x80] := by decide
theorem test_row_sentinel : encodeRow stop = [0, 0, 0, 0, 0, 0, 0, 0, 0, 0, 0, 0, 0, 0, 0, 0, 0, 0xFF] := by decide
theorem test_ctl_8f : decodeCtl 0x8F = .ok (.count 15 true) := by decide
theorem test_ctl_ill_formed : decodeCtl 0x90 = .error (.badCount 0x90) ∧ decodeCtl 0x7F = .error (.badCount 0x7F) := by
  decide

/-! ## Bus Transport (section 2.1) -/

/-- T5, the line-level trace. -/
theorem test_sendbits_trace : (run State.reset 0x010005000300000000 []).map (·.trace) =
    some ([.line .cs false] ++ bitTo true ++ bitTo false ++ bitTo true ++ [.line .cs true]) := by decide +kernel
/-- T14: a count of 17 is rejected with cause 3. -/
theorem test_sendbits_17 : seen State.reset 0x0100A5001100000000 [] = some ([], 0, ⟨1, 3⟩) := by decide +kernel
/-- T1, the line-level trace. -/
theorem test_sendbyte_trace : (run State.reset 0x0200A5000000000000 []).map (·.trace) =
    some ([.line .cs false] ++ bitTo true ++ bitTo false ++ bitTo true ++ bitTo false ++ bit ++ bitTo true ++
      bitTo false ++ bitTo true ++ [.line .cs true]) := by decide +kernel
/-- T16: a raw byte in command mode. -/
theorem test_sendbyte_command_mode :
    let s : State := { State.reset with lines := { State.reset.lines with dc := false, mosi := true } }
    seen s 0x02003C000000000000 [] = some ([c 0x3C], 21, ok) := by decide +kernel

/-! ## Command Sequencer (section 2.2) -/

/-- Section 3.4, step 2: a row with count 0 and a delay; no reset line, no hook. -/
theorem test_init_delay_row :
    let s := State.resetWith { withTable [Config.row 0x11 [] (.count 0 true), stop] with
      hasReset := false, orientHook := none }
    (run s 0x030000000000000000 []).map (fun t => (framesBy s t, t.trace.length, t.phase, t.viol)) =
      some ([c 0x11, .delay 100], 24, .awake, false) := by decide +kernel
/-- I2 and I6, the hook row alone: the stored byte is replaced by the table byte of code 3; rows after the sentinel
are not sent; INIT without reset is recorded. -/
theorem test_init_hook_row :
    let s := State.resetWith { withTable [Config.row 0x36 [0x00] (.count 1 false), stop,
      Config.row 0xCD [0x01] (.count 1 false), stop] with orientDefault := 3 }
    (run s 0x030000000000000000 []).map (fun t => (framesBy s t, t.violReasons)) =
      some ([c 0x36, d 0xE3], [.initWithoutReset]) := by decide +kernel

/-! ## Addressing (sections 1.3, 1.4, 2.3) -/

/-- O1: in Asleep the byte is sent and the violation recorded. -/
theorem test_orient_asleep : (run (inPhase .asleep) 0x040002000000000000 []).map
      (fun t => (framesBy (inPhase .asleep) t, t.orient, t.violReasons)) =
    some ([c 0x36, d 0xE2], 2, [.orientNotAwake]) := by decide +kernel
/-- O3, E4: code 4 is rejected and ORIENT keeps its value. -/
theorem test_orient_4 : (run (awakeAt 2) 0x040004000000000000 []).map (fun t => (t.trace, t.orient, t.viol, t.rsp)) =
    some ([], 2, false, ⟨1, 1⟩) := by decide +kernel
/-- W5: landscape exchanges the offsets, not the ranges; a sum beyond 16 bits is sent modulo 2^16 and recorded. -/
theorem test_window_landscape : (run (awakeAt 2) 0x0500000000FFFDFFFE []).map
      (fun t => (framesBy (awakeAt 2) t, t.violReasons)) =
    some ([c 0x2A, d 0x00, d 0x01, d 0xFF, d 0xFE, c 0x2B, d 0x00, d 0x02, d 0x00, d 0x00, c 0x2C], [.windowRange]) := by
  decide +kernel
/-- W16: the comparison is unsigned. -/
theorem test_window_unsigned : seen awake 0x05800000007FFF0000 [] = some ([], 0, ⟨1, 2⟩) := by decide +kernel

/-! ## Blit/Flush Driver and Power State Control (sections 2.4, 2.5) -/

/-- F2: the third byte is never read. -/
theorem test_flush : seen awake 0x060000000000000000 [0xAB, 0xCD, 0xEE] =
    some ([c 0x2A, d 0x00, d 0x02, d 0x00, d 0x02, c 0x2B, d 0x00, d 0x01, d 0x00, d 0x01, c 0x2C, d 0xAB, d 0xCD], 275,
      ok) := by decide +kernel
/-- F5: a malformed window is rejected before a byte is read. -/
theorem test_flush_malformed : seen awake 0x06000A000000050000 [0x01, 0x02] = some ([], 0, ⟨1, 2⟩) := by decide +kernel
/-- P1. -/
theorem test_slpin : (run awake 0x07FFFFFFFFFFFFFFFF []).map (fun t => (framesBy awake t, t.phase, t.viol)) =
    some ([c 0x10], .asleep, false) := by decide +kernel
/-- P4. -/
theorem test_slpin_uninitialized : (run State.reset 0x070000000000000000 []).map
      (fun t => (t.trace.length, t.phase, t.violReasons)) = some (21, .uninitialized, [.slpinNotAwake]) := by
  decide +kernel
/-- P2. -/
theorem test_slpout : (run (inPhase .asleep) 0x080000000000000000 []).map
      (fun t => (framesBy (inPhase .asleep) t, t.phase, t.viol)) = some ([c 0x11], .awake, false) := by decide +kernel
/-- P5. -/
theorem test_slpout_awake : (run awake 0x080000000000000000 []).map (fun t => (t.trace.length, t.phase, t.violReasons)) =
    some (22, .awake, [.slpoutNotAsleep]) := by decide +kernel
/-- P7. -/
theorem test_hwreset : (run State.reset 0x090000000000000000 []).map (fun t => (t.trace, t.phase, t.rstdone, t.viol)) =
    some ([.line .rst false, .delay 100, .line .rst true, .delay 100], .uninitialized, true, false) := by decide +kernel
/-- P10: without a reset line nothing happens on the wire. -/
theorem test_hwreset_no_line :
    let s := State.resetWith { Config.exampleDesc with hasReset := false }
    (run s 0x090000000000000000 []).map (fun t => (t.trace, t.lines.rst, t.rstdone, t.rsp)) =
      some ([], none, true, ok) := by decide +kernel

/-! ## The port -/

/-- E1: a reserved op changes only the response. -/
theorem test_reserved : (run awake 0x000000000000000000 []).map (fun t => (t.trace, t.phase, t.viol, t.busy, t.rsp)) =
    some ([], .awake, false, false, ⟨1, 4⟩) := by decide +kernel

/-! ## Witnesses: a concrete input meets all the hypotheses of each statement -/

/-- Does the outcome hold a next state? -/
def isNext (o : Host.Outcome State Fault Refusal) : Bool :=
  match o with
  | .next _ => true
  | .fault _ => false
  | .refused _ => false

theorem next_of {o : Host.Outcome State Fault Refusal} (h : isNext o = true) : ∃ t, o = .next t := by
  cases o with
  | next t => exact ⟨t, rfl⟩
  | fault f => cases h
  | refused r => cases h

/-- A request on the port, in Awake. -/
def at1 (w : ReqWord) (pix : List Byte) : State := awake.present ⟨w, pix⟩

/-- An instance whose table is only its sentinel. -/
def bare : State := State.resetWith (withTable [stop])

/-- Awake with two pixel bytes attached. -/
def withPixels : State := { awake with pixbuf := Memory.ofBytes 0 [0x12, 0x34] }

theorem witness_reset_lines : Config.exampleDesc.hasReset = true ∧
    ({ Config.exampleDesc with hasReset := false } : Desc).hasReset = false := by decide

/-- IdleEngineWaits, EveryStepKeepsTheInvariant, FrameTraceGrowsByTheRequest. -/
theorem witness_invariant : Invariant State.reset :=
  ⟨by decide, rfl, rfl, rfl, rfl, rfl, rfl, rfl, rfl, rfl, rfl, rfl, rfl, fun _ _ h => absurd rfl h, rfl⟩
theorem witness_idle : State.reset.desc.wf = true ∧ State.reset.busy = false ∧ State.reset.pending = [] := by decide

/-- The invariant with a request presented, and the step that follows. -/
theorem witness_invariant_step : ∃ t, Invariant (State.reset.present ⟨0x070000000000000000, []⟩) ∧
    step (State.reset.present ⟨0x070000000000000000, []⟩) = .next t := by
  obtain ⟨t, h⟩ := next_of (o := step (State.reset.present ⟨0x070000000000000000, []⟩)) (by decide +kernel)
  exact ⟨t, ⟨by decide, rfl, rfl, rfl, rfl, rfl, rfl, rfl, rfl, rfl, rfl, rfl, rfl, fun _ _ h => absurd rfl h, rfl⟩, h⟩

/-- StepRunsTheDecodedRequest. -/
theorem witness_step : (at1 0x040003000000000000 []).desc.wf = true ∧ (at1 0x040003000000000000 []).busy = false ∧
    (at1 0x040003000000000000 []).pending = [⟨0x040003000000000000, []⟩] ∧
    decode 0x040003000000000000 = .ok (.orient 3) := by decide

/-- ReservedEncodingsAreRejected: `op` 0, 10, 255; codes 4 and 0xFFFF; counts 0, 17, 0xFFFF. -/
theorem witness_reserved : (reqOp 0x000000000000000000).toNat = 0 ∧ 10 ≤ (reqOp 0x0A0000000000000000).toNat ∧
    10 ≤ (reqOp 0xFF0000000000000000).toNat ∧ 4 ≤ (4 : Half).toNat ∧ 4 ≤ (0xFFFF : Half).toNat ∧
    (0 : Half).toNat = 0 ∧ 17 ≤ (17 : Half).toNat ∧ 17 ≤ (0xFFFF : Half).toNat := by decide

/-- BusyPortAcceptsNothing. -/
theorem witness_busy : ({ awake with busy := true } : State).desc.wf = true ∧
    ({ awake with busy := true } : State).busy = true := by decide

/-- IllFormedDescriptorIsRefused. -/
theorem witness_ill_formed : (State.resetWith (withTable [])).desc.wf = false := by decide

/-- DecoderAcceptsExactlyTheTable: the two ends of the accepted range. -/
theorem witness_decoder : decode 0x0100A5000800000000 = .ok (.sendbits 0xA5 8) ∧
    decode 0x090000000000000000 = .ok .hwreset := by decide

/-- PackedRowsRoundTrip: count 15 with and without the flag, and the first ill-formed count. -/
theorem witness_rows : (Config.row 0xAB [] (.count 15 true)).params.length = 16 ∧
    (Config.row 0xAB [] (.count 15 true)).parameterCount ≤ 15 ∧ (0x0F : Byte).toNat % 128 ≤ 15 ∧
    (0x8F : Byte).toNat % 128 ≤ 15 ∧ (0x10 : Byte) ≠ 0xFF ∧ 15 < (0x10 : Byte).toNat % 128 := by decide

/-- PackedTablesRoundTrip. -/
theorem witness_tables : (∀ r ∈ [Config.row 0x11 [] (.count 0 true), Config.row 0xAB [] (.count 15 false)],
      r.params.length = 16 ∧ r.parameterCount ≤ 15 ∧ r.ctl ≠ .stop) ∧ stop.params.length = 16 ∧ stop.ctl = .stop := by
  decide

/-- DriveRecordsOnlyChanges: a line at the level, and one at the other. -/
theorem witness_drive : State.reset.lines.get .cs = some true ∧ State.reset.lines.get .mosi = some (!true) ∧
    State.reset.lines.get .rst = some (!false) := by decide

/-- SendBitsLineTrace, SendBitsIsOneFrame, SendBitsEventCount: from reset, and with `DC = 0`; 1 bit and 16. -/
theorem witness_sendbits_lines : 1 ≤ 1 ∧ 1 ≤ 16 ∧ 16 ≤ 16 ∧ State.reset.lines.cs = true ∧ State.reset.lines.clk = true ∧
    State.reset.lines.dc = true ∧ ({ State.reset with lines := { State.reset.lines with dc := false } } : State).lines.dc =
      false := by decide

/-- SendbitsSendsOrRejects: counts 1, 16 and 0, 17. -/
theorem witness_sendbits : 1 ≤ (1 : Half).toNat ∧ (1 : Half).toNat ≤ 16 ∧ 1 ≤ (16 : Half).toNat ∧
    (16 : Half).toNat ≤ 16 ∧ (0 : Half).toNat < 1 ∧ 16 < (17 : Half).toNat ∧ awake.lines.cs = true := by decide

/-- InitRunsTheTable, InitSize, PoweronReachesAwake: the example table, and the empty one. -/
theorem witness_init : State.reset.desc.wf = true ∧
    InitRow.beforeEnd State.reset.desc.initTable = some (Config.exampleTable.take 6) ∧
    bare.desc.wf = true ∧ InitRow.beforeEnd bare.desc.initTable = some [] ∧ State.reset.lines.cs = true ∧
    bare.lines.cs = true ∧ State.reset.phase = .uninitialized ∧
    State.reset.lines.rst = (if State.reset.desc.hasReset then some true else none) := by decide

/-- OrientStoresAndSends: codes 0, 3 and 4. -/
theorem witness_orient : (0 : Half).toNat ≤ 3 ∧ (3 : Half).toNat ≤ 3 ∧ 3 < (4 : Half).toNat ∧
    awake.lines.cs = true := by decide

/-- OrientIsIdempotent: twice in a row, and from two states of one descriptor. -/
theorem witness_orient_twice : ∃ t u v, exec (.orient 1) awake = .next t ∧ exec (.orient 1) t = .next u ∧
    exec (.orient 1) (awakeAt 2) = .next v ∧ (awakeAt 2).desc = awake.desc ∧ (awakeAt 2).lines.cs = true :=
  ⟨_, _, _, rfl, rfl, rfl, rfl, rfl⟩

/-- WindowSendsElevenFrames: one pixel, and the whole address range. -/
theorem witness_window : (7 : Half).toNat ≤ (7 : Half).toNat ∧ (0 : Half).toNat ≤ (0xFFFF : Half).toNat ∧
    awake.lines.cs = true := by decide

/-- WindowRangeIsRecorded: just beyond the limit in the portrait and in the landscape codes, and the limits of the
other clauses (W4, W5). -/
theorem witness_range : awake.desc.colMax0.toNat < (0xFFFE : Half).toNat + awake.offx.toNat ∧
    (awakeAt 2).desc.rowMax1.toNat < (0xFFFE : Half).toNat + (awakeAt 2).offx.toNat ∧
    awake.desc.colMax0 = 0xFFFF ∧ awake.desc.rowMax0 = 0xFFFF ∧ awake.desc.colMax1 = 0xFFFF ∧
    awake.desc.rowMax1 = 0xFFFF ∧ awake.orient.toNat < 2 ∧ (awakeAt 1).orient.toNat < 2 ∧
    2 ≤ (awakeAt 2).orient.toNat ∧ (0xFFFF : Half).toNat + awake.offx.toNat = 65537 ∧
    (0xFFFD : Half).toNat + awake.offx.toNat = 65535 := by decide

/-- MalformedWindowIsRejected: W14, W15, W16. -/
theorem witness_malformed : (4 : Half).toNat < (5 : Half).toNat ∧ (0x7FFF : Half).toNat < (0x8000 : Half).toNat := by
  decide

/-- FlushStreamsTheBuffer: F1. -/
theorem witness_flush : withPixels.lines.cs = true ∧
    [0x12, (0x34 : Byte)].length = 2 * ((5 : Half).toNat - (5 : Half).toNat + 1) * ((7 : Half).toNat - (7 : Half).toNat + 1) ∧
    withPixels.pixbuf.holds [0x12, 0x34] := by
  refine ⟨rfl, rfl, ?_⟩
  show ∀ k, k < 2 → _
  decide

/-- FlushReadsExactlyItsBuffer: one byte too few, exactly enough, one too many. -/
theorem witness_flush_port : decode 0x060005000700050007 = .ok (.flush 5 7 5 7) ∧
    (at1 0x060005000700050007 [0x12]).pending = [⟨0x060005000700050007, [0x12]⟩] ∧
    [(0x12 : Byte)].length < pixelBytes 5 7 5 7 ∧ pixelBytes 5 7 5 7 ≤ [(0x12 : Byte), 0x34].length ∧
    pixelBytes 5 7 5 7 ≤ [(0x12 : Byte), 0x34, 0x56].length := by decide

/-- HwresetPulsesTheLine: with and without a reset line. -/
theorem witness_hwreset : awake.lines.rst = (if awake.desc.hasReset then some true else none) ∧
    (State.resetWith { Config.exampleDesc with hasReset := false }).lines.rst =
      (if (State.resetWith { Config.exampleDesc with hasReset := false }).desc.hasReset then some true else none) := by
  decide

/-- RejectionChangesOnlyTheResponse: each cause a decoded request can have. -/
theorem witness_rejection : argumentError (.orient 4) = some .orientRange ∧
    argumentError (.window 10 0 5 0) = some .windowOrder ∧ argumentError (.flush 0 1 0 0) = some .windowOrder ∧
    argumentError (.sendbits 0xA5 17) = some .badBitcount := by decide

/-- The statements about a request that completes (ResponseMatchesTheArgumentCheck, RequestsFollowThePhaseTable,
ViolationsFollowTheTable, RequestsWriteNoMemory, DelaysAndResetLineAreConfined, RequestsKeepTheLineDiscipline,
GhostStateNeverShows, TransientRegistersStayWithTheirRequests): an accepted one and a rejected one. -/
theorem witness_completes : ∃ t u, exec .slpin awake = .next t ∧ argumentError .slpin = none ∧
    exec (.orient 4) awake = .next u ∧ argumentError (.orient 4) = some .orientRange ∧ awake.lines.cs = true ∧
    awake.lines.clk = true := ⟨_, _, rfl, rfl, rfl, rfl, rfl, rfl⟩

/-- EveryRequestCompletes: a buffer of exactly `N` bytes. -/
theorem witness_payload : withPixels.desc.wf = true ∧ payloadCovers (.flush 5 7 5 7) withPixels := by
  refine ⟨by decide, fun _ => ?_⟩
  show ∀ k, k < 2 → _
  decide

/-- HostDutyKeepsTheRunSafe: a request of each kind that keeps the duties. -/
theorem witness_duty : HostDutyKept .hwreset State.reset ∧
    HostDutyKept .init { State.reset with rstdone := true } ∧ HostDutyKept (.orient 3) awake ∧
    HostDutyKept (.window 0 0 127 127) awake ∧ HostDutyKept (.flush 5 7 5 7) withPixels ∧ HostDutyKept .slpin awake ∧
    HostDutyKept .slpout (inPhase .asleep) ∧ HostDutyKept (.sendbits 5 3) awake ∧ HostDutyKept (.sendbyte 5) awake :=
  ⟨⟨rfl, by decide, trivial⟩, ⟨rfl, by decide, trivial⟩, ⟨by decide, by decide, trivial⟩,
    ⟨by decide, by decide, trivial⟩, ⟨by decide, by decide, witness_payload.2⟩, ⟨rfl, by decide, trivial⟩,
    ⟨rfl, by decide, trivial⟩, ⟨by decide, by decide, trivial⟩, ⟨rfl, by decide, trivial⟩⟩

/-- OnlyOrientWritesConfiguration, TraceOnlyGrows: a step that changes ORIENT. -/
theorem witness_orient_step : ((run awake 0x040003000000000000 []).map fun t => decide (t.orient ≠ awake.orient)) =
    some true := by decide +kernel

/-- MinimumDurations: INIT, POWERON, and a FLUSH. -/
theorem witness_durations : (∃ t u, exec .hwreset bare = .next t ∧ exec .init t = .next u) ∧ bare.desc.hasReset = true ∧
    bare.lines.cs = true ∧ ∃ t, exec (.flush 5 7 5 7) withPixels = .next t :=
  ⟨⟨_, _, rfl, rfl⟩, rfl, rfl, next_of (by decide +kernel)⟩

/-- FramesIgnoreLeftoverLevels: SENDBITS with the level of `DC` kept, and SLPIN with all three changed. -/
theorem witness_leftover : ∃ t u, exec .slpin awake = .next t ∧
    exec .slpin { awake with lines := { awake.lines with clk := false, mosi := true, dc := false } } = .next u ∧
    ¬ ((∃ a b, Instr.slpin = .sendbits a b) ∨ (∃ v, Instr.slpin = .sendbyte v)) ∧
    (∃ v w, exec (.sendbyte 5) awake = .next v ∧
      exec (.sendbyte 5) { awake with lines := { awake.lines with clk := false, mosi := true, dc := awake.lines.dc } } =
        .next w) := ⟨_, _, rfl, rfl, by simp, _, _, rfl, rfl⟩

/-- InstancesAreIndependent. -/
theorem witness_instances : (0 : Nat) ≠ 1 ∧ ∃ sys', stepAt 1 [State.reset, awake] = some sys' :=
  ⟨by decide, _, rfl⟩

end Sys2Proof.Tests
end

section
/-! PROOFS. The line and time primitives and the one exception (spec/00_scope.md R12, R14; spec/60_exceptions.md
R221, R223, R225). -/

namespace Sys2Proof.Machine

/-! ## Drive, by the level the line has -/

theorem Lines.driveEvents_of_get {ls : Lines} {l : Line} {v : Level} (h : ls.get l = some v) :
    ls.driveEvents l v = [] := by
  simp [Lines.driveEvents, h]

theorem Lines.driveEvents_of_get_not {ls : Lines} {l : Line} {v : Level} (h : ls.get l = some (!v)) :
    ls.driveEvents l v = [.line l v] := by
  simp [Lines.driveEvents, h]

/-- Only a line that exists takes the level (log entry 11). -/
theorem Lines.get_set_same (ls : Lines) (l : Line) (v : Level) :
    (ls.set l v).get l = (ls.get l).map fun _ => v := by
  cases l <;> rfl

theorem State.drive_of_get {s : State} {l : Line} {v : Level} (h : s.lines.get l = some v) : s.drive l v = s := by
  rw [State.drive, Lines.set_of_get h, Lines.driveEvents_of_get h, List.append_nil]

theorem State.drive_of_get_not {s : State} {l : Line} {v : Level} (h : s.lines.get l = some (!v)) :
    s.drive l v = { s with lines := s.lines.set l v, trace := s.trace ++ [.line l v] } := by
  rw [State.drive, Lines.driveEvents_of_get_not h]

/-- Settles O15, by the level the line has before the `Drive`. -/
theorem driveRecordsOnlyChanges : Obligations.DriveRecordsOnlyChanges := by
  refine ⟨fun s l v h => State.drive_of_get h, fun s l v h => ⟨State.drive_of_get_not h, ?_⟩, fun s ms => rfl⟩
  rw [State.drive_lines, Lines.get_set_same, h, Option.map_some]

/-! ## Which operands each argument check rejects -/

theorem argumentError_sendbits_iff {v n : Half} {c : Cause} :
    argumentError (.sendbits v n) = some c ↔ ¬ bitCountLegal n = true ∧ c = .badBitcount := by
  rw [bitCountLegal_iff, not_not, argumentError, Option.ite_none_right_eq_some, Option.some_inj, eq_comm (a := c)]

theorem argumentError_orient_iff {k : Half} {c : Cause} :
    argumentError (.orient k) = some c ↔ ¬ orientLegal k = true ∧ c = .orientRange := by
  rw [orientLegal_iff, not_not, argumentError, Option.ite_none_right_eq_some, Option.some_inj, eq_comm (a := c)]

theorem argumentError_window_iff {x1 y1 x2 y2 : Half} {c : Cause} :
    argumentError (.window x1 y1 x2 y2) = some c ↔ ¬ windowOrdered x1 y1 x2 y2 = true ∧ c = .windowOrder := by
  rw [windowOrdered_iff, not_not, argumentError, Option.ite_none_right_eq_some, Option.some_inj, eq_comm (a := c)]

/-- FLUSH checks its corners as WINDOW does (R192). -/
theorem argumentError_flush (x1 y1 x2 y2 : Half) :
    argumentError (.flush x1 y1 x2 y2) = argumentError (.window x1 y1 x2 y2) := rfl

/-! ## A rejected request -/

/-- A request whose argument check fails raises its cause and does nothing else: each of the four that check
operands does so before its first effect, and the other five have no check to fail. -/
theorem exec_rejected {i : Instr} {c : Cause} (h : argumentError i = some c) (s : State) :
    exec i s = .next (s.raise c) := by
  cases i with
  | sendbits v n =>
    obtain ⟨hn, rfl⟩ := argumentError_sendbits_iff.1 h
    exact if_neg hn
  | orient k =>
    obtain ⟨hk, rfl⟩ := argumentError_orient_iff.1 h
    exact if_neg hk
  | window x1 y1 x2 y2 =>
    obtain ⟨ho, rfl⟩ := argumentError_window_iff.1 h
    exact if_neg ho
  | flush x1 y1 x2 y2 =>
    rw [argumentError_flush] at h
    obtain ⟨ho, rfl⟩ := argumentError_window_iff.1 h
    exact if_neg ho
  | sendbyte _ => cases h
  | init => cases h
  | slpin => cases h
  | slpout => cases h
  | hwreset => cases h

/-- Settles O34, from `exec_rejected`: what `raise` writes is `RSP` and `BUSY`. -/
theorem rejectionChangesOnlyTheResponse : Obligations.RejectionChangesOnlyTheResponse :=
  ⟨⟨rfl, rfl, rfl, rfl⟩, fun _ s _ h => exec_rejected h s⟩

end Sys2Proof.Machine
end

section
/-! PROOFS. Engine reset and the idle engine (spec/10_state.md R36; spec/70_reset_and_hazards.md R250, R251). -/

namespace Sys2Proof.Machine

/-- The reset line is high after engine reset where there is one, and absent otherwise (R26, log entry 11). -/
theorem Lines.reset_rst_of_hasReset {b : Bool} (h : b = true) : (Lines.reset b).rst = some true := if_pos h

theorem Lines.reset_rst_of_not_hasReset {b : Bool} (h : b = false) : (Lines.reset b).rst = none :=
  if_neg (Bool.eq_false_iff.1 h)

/-- An idle engine of a well-formed descriptor, with nothing presented, waits (R251, log entry 3). -/
theorem step_of_idle {s : State} (hwf : s.desc.wf = true) (hbusy : s.busy = false) (hport : s.pending = []) :
    step s = .next s := by
  simp [step, hwf, hbusy, hport]

/-- Engine reset leaves the engine idle with nothing presented, whatever the descriptor. -/
theorem step_resetWith {d : Desc} (hwf : d.wf = true) : step (State.resetWith d) = .next (State.resetWith d) :=
  step_of_idle hwf rfl rfl

/-- Settles O1: R36's values are the fields of `State.resetWith`, the reset line's by whether there is one, and the
wait is the idle engine's. -/
theorem resetLeavesSpecValues : Obligations.ResetLeavesSpecValues := fun _ =>
  ⟨rfl, rfl, rfl, rfl, rfl, rfl, rfl, rfl, Lines.reset_rst_of_hasReset, Lines.reset_rst_of_not_hasReset,
    rfl, rfl, rfl, rfl, rfl, rfl, rfl, step_resetWith⟩

end Sys2Proof.Machine
end

section
/-! PROOFS. The fields a request uses, and the words the assembler emits (spec/30_encoding.md R90, R92, R94, R107). -/

namespace Sys2Proof

/-! ## Decoding a word built from fields: only the fields the operation uses are read -/

theorem decode_reqWord_sendbits (a b c d : Half) : decode (reqWord 0x01 a b c d) = .ok (.sendbits a b) := by
  simp [decode, reqOp_reqWord, reqA_reqWord, reqB_reqWord]

/-- Of SENDBYTE's field `a` only the low byte is read. -/
theorem decode_reqWord_sendbyte (hi v : Byte) (b c d : Half) :
    decode (reqWord 0x02 (hi ++ v) b c d) = .ok (.sendbyte v) := by
  have hlow : (hi ++ v).setWidth 8 = v := BitVec.setWidth_append_eq_right
  simp [decode, reqOp_reqWord, reqA_reqWord, hlow]

theorem decode_reqWord_init (a b c d : Half) : decode (reqWord 0x03 a b c d) = .ok .init := by
  simp [decode, reqOp_reqWord]

theorem decode_reqWord_orient (a b c d : Half) : decode (reqWord 0x04 a b c d) = .ok (.orient a) := by
  simp [decode, reqOp_reqWord, reqA_reqWord]

theorem decode_reqWord_slpin (a b c d : Half) : decode (reqWord 0x07 a b c d) = .ok .slpin := by
  simp [decode, reqOp_reqWord]

theorem decode_reqWord_slpout (a b c d : Half) : decode (reqWord 0x08 a b c d) = .ok .slpout := by
  simp [decode, reqOp_reqWord]

theorem decode_reqWord_hwreset (a b c d : Half) : decode (reqWord 0x09 a b c d) = .ok .hwreset := by
  simp [decode, reqOp_reqWord]

/-! ## Encoding -/

/-- The encoder's word for SENDBYTE has a zero byte above the value. -/
theorem encode_sendbyte (v : Byte) : encode (.sendbyte v) = reqWord 0x02 ((0 : Byte) ++ v) 0 0 0 :=
  congrArg (reqWord 0x02 · 0 0 0) (BitVec.setWidth_eq_append (x := v) (w := 16) (by decide))

end Sys2Proof

namespace Sys2Proof.Machine

theorem Encoded.append {rs more : List Request} (h : Encoded rs) (k : Encoded more) : Encoded (rs ++ more) := by
  intro r hr
  rcases List.mem_append.1 hr with hr | hr
  · exact h r hr
  · exact k r hr

/-- A text whose every line assembles gives the requests of its lines, so only words of the encoder. -/
theorem asmLines_encoded {ls : List (List Char)} {rs : List Request} (h : asmLines ls = .ok rs) : Encoded rs := by
  induction ls generalizing rs with
  | nil => cases h; intro r hr; cases hr
  | cons l ls ih =>
    rw [asmLines] at h
    split at h
    · next hline hmore => cases h; exact (asmLine_encoded hline).append (ih hmore)
    · cases h
    · cases h

/-- Settles O9: the decoder by the equations of each operation, the encoder by its definition (SENDBYTE's zero byte
by `encode_sendbyte`), the assembler line by line. -/
theorem unusedFieldsAreIgnored : Obligations.UnusedFieldsAreIgnored :=
  ⟨decode_reqWord_sendbyte,
    fun a b c d => ⟨decode_reqWord_sendbits a b c d, decode_reqWord_orient a b c d, decode_reqWord_init a b c d,
      decode_reqWord_slpin a b c d, decode_reqWord_slpout a b c d, decode_reqWord_hwreset a b c d⟩,
    fun v _ _ => ⟨encode_sendbyte v, rfl, rfl, rfl, rfl, rfl, rfl⟩,
    fun _ _ h => asmLines_encoded h⟩

end Sys2Proof.Machine
end

section
/-! PROOFS. FLUSH and the buffer attached to it (spec/30_encoding.md R97; spec/43_blit_power.md R190, R193): the run
is the stream from one start state, and it reads the first `N` bytes alone. -/

namespace Sys2Proof.Machine

/-! ## Another buffer attached -/

/-- `s` with another buffer attached. -/
def State.attach (m : Memory) (s : State) : State := { s with pixbuf := m }

/-- The buffer `m` beside the ghost state of `s`. -/
def Aside.attach (m : Memory) (s : State) : Aside := ⟨m, s.phase, s.viol, s.violReasons, s.rstdone⟩

/-- A run writes no ghost state, so attaching a buffer after it is replacing the aside of its first state. -/
theorem Runs.attach {d : Bool} {s t : State} (h : Runs d s t) (m : Memory) :
    t.attach m = t.aside (Aside.attach m s) := by
  obtain ⟨-, -, -, -, -, -, hphase, hviol, hreasons, hrst⟩ := h.fields
  simp only [State.attach, State.aside, Aside.attach, ← hphase, ← hviol, ← hreasons, ← hrst]

theorem sendWindow_attach (m : Memory) (s : State) : sendWindow (s.attach m) = (sendWindow s).attach m := by
  rw [(Runs.sendWindow s).attach m, ← aside_sendWindow]
  rfl

theorem setWindow_attach (m : Memory) (w : Win) (s : State) :
    setWindow w (s.attach m) = (setWindow w s).attach m := by
  rw [setWindow, setWindow, ← sendWindow_attach]
  rfl

theorem setWindow_pixbuf (w : Win) (s : State) : (setWindow w s).pixbuf = s.pixbuf := by
  obtain ⟨-, -, -, hp, -⟩ := (Runs.sendWindow (latchPanel (latchWindow w s))).fields
  exact hp

/-- The stream, if the other buffer has the same bytes where the stream reads. -/
theorem streamLoop_attach {n k : Nat} {s t : State} {m : Memory} (h : streamLoop n k s = some t)
    (hm : ∀ i, i < n → Memory.read m (k + i) = pixRead s (k + i)) :
    streamLoop n k (s.attach m) = some (t.attach m) := by
  have hs := aside_streamLoop (Aside.attach m s) n k s hm
  rw [h, Option.map_some, ← (Runs.streamLoop h).attach m] at hs
  exact hs

/-! ## FLUSH is the stream from its start state -/

/-- The state in which the stream of a FLUSH starts: the window sent, data mode, `PIXCNT` loaded (R190). -/
def flushStart (x1 y1 x2 y2 : Half) (s : State) : State :=
  loadPixcnt (pixelBytes x1 y1 x2 y2)
    (setWindow ⟨x1, y1, x2, y2⟩ (s.violateIf (s.phase != .awake) .flushNotAwake)).dataMode

theorem flushStart_attach (x1 y1 x2 y2 : Half) (m : Memory) (s : State) :
    flushStart x1 y1 x2 y2 (s.attach m) = (flushStart x1 y1 x2 y2 s).attach m := by
  have h := setWindow_attach m ⟨x1, y1, x2, y2⟩ (s.violateIf (s.phase != .awake) .flushNotAwake)
  unfold flushStart
  generalize setWindow ⟨x1, y1, x2, y2⟩ (s.violateIf (s.phase != .awake) .flushNotAwake) = u at h ⊢
  exact congrArg (fun v : State => loadPixcnt (pixelBytes x1 y1 x2 y2) v.dataMode) h

theorem pixRead_flushStart (x1 y1 x2 y2 : Half) (s : State) (k : Nat) :
    pixRead (flushStart x1 y1 x2 y2 s) k = Memory.read s.pixbuf k := by
  have h := setWindow_pixbuf ⟨x1, y1, x2, y2⟩ (s.violateIf (s.phase != .awake) .flushNotAwake)
  unfold flushStart
  generalize setWindow ⟨x1, y1, x2, y2⟩ (s.violateIf (s.phase != .awake) .flushNotAwake) = u at h ⊢
  exact congrArg (Memory.read · k) h

/-- `PIXCNT` holds `N`, which fits its 34 bits. -/
theorem stream_flushStart (x1 y1 x2 y2 : Half) (s : State) :
    stream (flushStart x1 y1 x2 y2 s) = streamLoop (pixelBytes x1 y1 x2 y2) 0 (flushStart x1 y1 x2 y2 s) := by
  have hN : (flushStart x1 y1 x2 y2 s).pixcnt.toNat = pixelBytes x1 y1 x2 y2 :=
    Nat.mod_eq_of_lt (pixelBytes_lt x1 y1 x2 y2)
  rw [stream, hN]

/-- What is left of a FLUSH when its stream has ended. -/
def flushEnd (t : State) : State := t.retireSerializer.retireWindow.retirePixcnt.respondOk

/-- An ordered FLUSH answers `t` exactly when its stream ends in a state whose end is `t`. -/
theorem execFlush_eq_next_iff {x1 y1 x2 y2 : Half} (ho : windowOrdered x1 y1 x2 y2 = true) {s t : State} :
    execFlush x1 y1 x2 y2 s = .next t ↔
      ∃ u, streamLoop (pixelBytes x1 y1 x2 y2) 0 (flushStart x1 y1 x2 y2 s) = some u ∧ t = flushEnd u := by
  rw [execFlush, if_pos ho, ← flushStart, stream_flushStart]
  cases streamLoop (pixelBytes x1 y1 x2 y2) 0 (flushStart x1 y1 x2 y2 s) with
  | none => simp
  | some u => simp [flushEnd, eq_comm]

/-- An ordered FLUSH completes if the attached buffer has the `N` bytes. -/
theorem execFlush_completes {x1 y1 x2 y2 : Half} (ho : windowOrdered x1 y1 x2 y2 = true) {s : State}
    (hb : ∀ k, k < pixelBytes x1 y1 x2 y2 → (Memory.read s.pixbuf k).isSome = true) :
    ∃ t, execFlush x1 y1 x2 y2 s = .next t := by
  obtain ⟨u, hu⟩ := streamLoop_some (n := pixelBytes x1 y1 x2 y2) (k := 0) (s := flushStart x1 y1 x2 y2 s)
    fun i hi => by rw [Nat.zero_add, pixRead_flushStart]; exact hb i hi
  exact ⟨flushEnd u, (execFlush_eq_next_iff ho).2 ⟨u, hu, rfl⟩⟩

/-- An ordered FLUSH is refused if one of the `N` bytes is missing. -/
theorem execFlush_refused {x1 y1 x2 y2 : Half} (ho : windowOrdered x1 y1 x2 y2 = true) {s : State} {k : Nat}
    (hk : k < pixelBytes x1 y1 x2 y2) (hb : Memory.read s.pixbuf k = none) :
    execFlush x1 y1 x2 y2 s = .refused .pixelBufferTooShort := by
  have hnone := streamLoop_none (pixelBytes x1 y1 x2 y2) 0 k (flushStart x1 y1 x2 y2 s) hk
    (by rw [Nat.zero_add, pixRead_flushStart]; exact hb)
  rw [execFlush, if_pos ho, ← flushStart, stream_flushStart, hnone]

/-- Of the attached buffer a FLUSH reads the first `N` bytes alone: with any buffer that agrees on them, the run is
the same but for the buffer itself. -/
theorem execFlush_attach {x1 y1 x2 y2 : Half} (ho : windowOrdered x1 y1 x2 y2 = true) {s t : State} {m : Memory}
    (h : execFlush x1 y1 x2 y2 s = .next t)
    (hm : ∀ k, k < pixelBytes x1 y1 x2 y2 → Memory.read m k = Memory.read s.pixbuf k) :
    execFlush x1 y1 x2 y2 (s.attach m) = .next (t.attach m) := by
  obtain ⟨u, hu, rfl⟩ := (execFlush_eq_next_iff ho).1 h
  have ha := streamLoop_attach (m := m) hu fun i hi => by rw [Nat.zero_add, pixRead_flushStart]; exact hm i hi
  rw [← flushStart_attach] at ha
  exact (execFlush_eq_next_iff ho).2 ⟨u.attach m, ha, rfl⟩

/-! ## Through the port -/

/-- An idle engine accepts the request at the head of the port and executes what its word decodes to (R17, R225). -/
theorem step_of_decode {s : State} {r : Request} {rest : List Request} {i : Instr} (hwf : s.desc.wf = true)
    (hbusy : s.busy = false) (hport : s.pending = r :: rest) (hdec : decode r.word = .ok i) :
    step s = exec i (s.acceptNext r rest) := by
  simp [step, hwf, hbusy, hport, hdec]

/-- Of two requests that differ in their payload alone, the accepted states differ in the attached buffer alone. -/
theorem acceptNext_attach (r : Request) (pix : List Byte) (rest port : List Request) (s : State) :
    ({ s with pending := port } : State).acceptNext { r with pix := pix } rest =
      (s.acceptNext r rest).attach (Memory.ofBytes 0 pix) := rfl

/-- The attached buffer holds the payload from offset 0 on (R63). -/
theorem Memory.read_payload (bs : List Byte) (k : Nat) : Memory.read (Memory.ofBytes 0 bs) k = bs[k]? := by
  simpa using Memory.read_ofBytes 0 bs k

/-- Settles O29: the step is the FLUSH of the accepted request, which misses a byte of a short payload
(`execFlush_refused`), and of a long enough one sends the first `N` bytes (`flush_waves`) and reads no more
(`execFlush_attach`). -/
theorem flushReadsExactlyItsBuffer : Obligations.FlushReadsExactlyItsBuffer := by
  intro x1 y1 x2 y2 r rest s hwf hbusy hport hdec hx hy
  have ho : windowOrdered x1 y1 x2 y2 = true := (windowOrdered_iff x1 y1 x2 y2).2 (by omega)
  rw [step_of_decode hwf hbusy hport hdec]
  refine ⟨fun hshort => execFlush_refused ho hshort ?_, fun hlong => ?_⟩
  · exact (Memory.read_payload _ _).trans (List.getElem?_eq_none (Nat.le_refl _))
  obtain ⟨t, ht⟩ := execFlush_completes (s := s.acceptNext r rest) ho fun k hk => by
    have hread : Memory.read (s.acceptNext r rest).pixbuf k = r.pix[k]? := Memory.read_payload _ _
    rw [hread, List.getElem?_eq_getElem (Nat.lt_of_lt_of_le hk hlong), Option.isSome_some]
  refine ⟨t, ht, fun hcs => ?_, ?_⟩
  · obtain ⟨bytes, hlen, hread, hw, -⟩ := flush_waves ht ho hcs
    have hprefix : bytes <+: r.pix := List.prefix_iff_getElem?.2 fun k hk =>
      (Memory.read_payload _ _).symm.trans ((hread k hk).trans (List.getElem?_eq_getElem hk))
    rw [List.prefix_iff_eq_take.1 hprefix, hlen] at hw
    exact hw.appends
  · have hstep := step_of_decode
      (s := { s with pending := { r with pix := r.pix.take (pixelBytes x1 y1 x2 y2) } :: rest }) hwf hbusy rfl hdec
    rw [acceptNext_attach] at hstep
    refine hstep.trans (execFlush_attach ho ht fun k hk => ?_)
    rw [Memory.read_payload, List.getElem?_take_of_lt hk]
    exact (Memory.read_payload _ _).symm

end Sys2Proof.Machine
end

section
/-! PROOFS. SENDBITS and SENDBYTE (spec/40_bus_transport.md R130, R140, R141): both requests are one transfer and the
response OK. -/

namespace Sys2Proof.Machine

/-! ## The events of a frame from a clock at rest (R130) -/

/-- From a high clock both clock drives are changes, so only the data line's event depends on the bit. -/
theorem bitEvents_of_clk {ls : Lines} (b : Level) (h : ls.clk = true) :
    bitEvents ls b =
      .line .clk false :: ((if b = ls.mosi then [] else [.line .mosi b]) ++ [.line .clk true]) := by
  obtain ⟨cs, clk, mosi, dc, rst⟩ := ls
  subst h
  cases mosi <;> cases b <;> rfl

theorem shiftEvents_of_clk {ls : Lines} (v : Half) (n : Nat) (h : ls.clk = true) :
    shiftEvents ls v n = roundEvents ls.mosi (bitsOf v n) := by
  induction n generalizing ls with
  | zero => rfl
  | succ i ih =>
    have hrest : shiftEvents (bitLines ls (v.getLsbD i)) v i = roundEvents (v.getLsbD i) (bitsOf v i) := ih rfl
    rw [shiftEvents, bitEvents_of_clk _ h, hrest, bitsOf, roundEvents, List.cons_append, List.append_assoc,
      List.singleton_append]

theorem frameEvents_of_rest {ls : Lines} (v : Half) (n : Nat) (hcs : ls.cs = true) (hclk : ls.clk = true) :
    frameEvents ls v n = .line .cs false :: (roundEvents ls.mosi (bitsOf v n) ++ [.line .cs true]) := by
  have hopen : ls.driveEvents .cs false = [.line .cs false] :=
    Lines.driveEvents_of_get_not (congrArg some hcs)
  have hlow : (shiftLines (ls.set .cs false) v n).get .cs = some (!true) := by
    cases n with
    | zero => rfl
    | succ i => rw [shiftLines_succ]; rfl
  have hhigh : (ls.set .cs false).clk = true := hclk
  rw [frameEvents, hopen, Lines.driveEvents_of_get_not hlow, shiftEvents_of_clk v n hhigh]
  rfl

/-! ## One transfer and the response -/

theorem Sends.trace {s t : State} {es : List Event} (h : Sends s t es) : t.trace = s.trace ++ es := by
  rw [h]

/-- `t` is `s` after a request that sent the `n` low bits of `v` in one frame, in the mode `DC` has, and responded OK:
what SENDBITS and SENDBYTE have in common (R140, R141). -/
structure SentOneFrame (v : Half) (n : Nat) (s t : State) : Prop where
  responded : RespondedOk t
  frames : AppendsFrames s t [frameOf s.lines.dc v n]
  events : s.lines.clk = true → t.trace = s.trace ++
    (.line .cs false :: (roundEvents s.lines.mosi (bitsOf v n) ++ [.line .cs true]))
  lines : t.lines = frameLines s.lines v
  config : ConfigKept s t
  orient : t.orient = s.orient
  phase : t.phase = s.phase
  ghost : GhostFlagsKept s t

/-- A transfer from `CS = 1` writes the lines, `TRACE` and the serializer (`Runs.fields`); retiring the serializer and
responding write none of the registers a frame is read from. -/
theorem sendBits_sentOneFrame {s : State} (v : Half) {n : Nat} (hn : 1 ≤ n) (hm : n ≤ 16) (hcs : s.lines.cs = true) :
    SentOneFrame v n s (s.sendBits v n).retireSerializer.respondOk := by
  obtain ⟨hdesc, hoffx, hoffy, hpix, hpend, horient, hphase, hviol, hreasons, hrst⟩ := (Runs.sendBits s v n).fields
  exact {
    responded := ⟨rfl, rfl, rfl⟩
    frames := ((sendBits_emits v hn hm hcs).waves.congr rfl rfl).appends
    events := fun hclk => by
      rw [← frameEvents_of_rest v n hcs hclk]
      exact (Sends.sendBits s v hm).trace
    lines := sendBits_lines v hn hm
    config := ⟨hdesc, hoffx, hoffy, hpix, hpend⟩
    orient := horient
    phase := hphase
    ghost := ⟨hviol, hreasons, hrst⟩ }

/-! ## The two requests -/

theorem exec_sendbits_of_legal {v n : Half} (h : bitCountLegal n = true) (s : State) :
    exec (.sendbits v n) s = .next (s.sendBits v n.toNat).retireSerializer.respondOk := if_pos h

/-- Settles O19: a legal count is the transfer (`sendBits_sentOneFrame`), any other the exception
(`exec_rejected`). -/
theorem sendbitsSendsOrRejects : Obligations.SendbitsSendsOrRejects := by
  refine fun a b s => ⟨reqOp_reqWord _ _ _ _ _, fun hn hm hcs => ?_, fun hbad => ?_⟩
  · have hlegal : bitCountLegal b = true := (bitCountLegal_iff b).2 (by omega)
    have h := sendBits_sentOneFrame a hn hm hcs
    exact ⟨_, exec_sendbits_of_legal hlegal s, h.responded, h.frames, h.events, h.lines, h.config, h.orient, h.phase,
      h.ghost⟩
  · exact exec_rejected (argumentError_sendbits_iff.2 ⟨fun h => (bitCountLegal_iff b).1 h hbad, rfl⟩) s

/-- Bit 0 of a byte is bit 0 of the byte in 16 bits. -/
theorem frameLines_zext16 (ls : Lines) (v : Byte) :
    frameLines ls (zext16 v) = { ls with cs := true, clk := true, mosi := v.getLsbD 0 } := by
  have hbit : (zext16 v).getLsbD 0 = v.getLsbD 0 := by simp [zext16]
  rw [frameLines, hbit]

/-- Settles O20: SENDBYTE is the transfer of 8 bits (`sendBits_sentOneFrame`), read as a byte, and its decoder skips
the high byte (`decode_reqWord_sendbyte`). -/
theorem sendbyteSendsOneByte : Obligations.SendbyteSendsOneByte := by
  refine fun v s hcs => ⟨fun hi => decode_reqWord_sendbyte hi v 0 0 0, ?_⟩
  have h := sendBits_sentOneFrame (zext16 v) (n := 8) (by decide) (by decide) hcs
  have hframes := h.frames
  rw [frameOf_byte] at hframes
  exact ⟨_, rfl, h.responded, hframes, h.events, h.lines.trans (frameLines_zext16 _ v), h.config, h.orient, h.phase,
    h.ghost⟩

end Sys2Proof.Machine
end

section
/-! PROOFS. INIT (spec/41_command_sequencer.md R150 to R158): the loop over the table ends, and what it sent stands
unchanged by the phase, the retired registers and the response written after it. -/

namespace Sys2Proof.Machine

/-! ## What every accepted request leaves -/

theorem Accepted.respondedOk {i : Instr} {s t : State} (h : Accepted i s t) : RespondedOk t :=
  ⟨congrArg Rsp.status h.rsp, congrArg Rsp.cause h.rsp, h.busy⟩

/-- Only HWRESET moves the reset line. -/
theorem Accepted.lines_rst {i : Instr} {s t : State} (h : Accepted i s t) (hi : i ≠ .hwreset) :
    t.lines.rst = s.lines.rst := by
  obtain ⟨es, -, hreplay, hrst, -⟩ := h.events
  rw [← hreplay]
  exact Lines.replay_rst _ _ (hrst hi)

/-! ## INIT -/

/-- Where the loop of INIT starts: the legality checks done, `IDX` at row 0 (R150, R158). -/
def initStart (s : State) : State := { s.initLegality with idx := 0 }

/-- What INIT does after its loop (R150). -/
def initEnd (t : State) : State := ({ t with phase := .awake } : State).retireSerializer.retireSequencer.respondOk

theorem exec_init_of_loop {s u : State} (hwf : s.desc.wf = true)
    (hloop : initLoop s.desc.initTable.length (initStart s) = some u) : exec .init s = .next (initEnd u) := by
  rw [initStart] at hloop
  simp only [exec, execInit, hwf, ↓reduceIte, hloop, initEnd]

/-- INIT of a well-formed descriptor completes. The loop runs from row 0 with the levels, the table and the
orientation of `s`, and nothing after it drives a line, so `DC` stays as the loop left it (R156). -/
theorem exec_init_completes {s : State} {rows : List InitRow} (hwf : s.desc.wf = true)
    (hrows : InitRow.beforeEnd s.desc.initTable = some rows) (hcs : s.lines.cs = true) :
    ∃ t, exec .init s = .next t ∧ t.lines.dc = (if rows = [] then s.lines.dc else true) := by
  obtain ⟨rows', hrows', hok⟩ := rowOk_of_wf hwf
  obtain rfl : rows = rows' := Option.some.inj (hrows.symm.trans hrows')
  obtain ⟨u, hloop, -, hdc, -, -⟩ :=
    initLoop_emits rows s.desc.initTable.length (initStart s) hcs hrows (beforeEnd_length hrows) hok
  exact ⟨initEnd u, exec_init_of_loop hwf hloop, hdc⟩

/-- Settles O21: INIT completes (`exec_init_completes`), its frames are the rows' (`init_waves`), and the registers
are those of every accepted request (`exec_accepted`). -/
theorem initRunsTheTable : Obligations.InitRunsTheTable := by
  refine fun s rows hwf hrows hcs => ⟨reqOp_reqWord _ _ _ _ _, ?_⟩
  obtain ⟨t, hexec, hdc⟩ := exec_init_completes hwf hrows hcs
  obtain ⟨hwave, hcs'⟩ := init_waves hexec hcs hrows
  have hacc : Accepted .init s t := exec_accepted hexec rfl
  exact ⟨t, hexec, hacc.respondedOk, hwave.appends, hacc.phase, hcs', hacc.lines_rst (by decide), hdc, hacc.violates,
    hacc.config, hacc.orient, hacc.rstdone⟩

end Sys2Proof.Machine
end

section
/-! PROOFS. ORIENT and WINDOW (spec/42_addressing_orientation.md R170 to R181), and the corner check and the range
check that WINDOW shares with FLUSH (R177, R178; spec/43_blit_power.md R192). -/

namespace Sys2Proof.Machine

/-! ## ORIENT -/

theorem argumentError_orient_of_le {a : Half} (ha : a.toNat ≤ 3) : argumentError (.orient a) = none :=
  if_neg (Nat.not_lt.2 ha)

theorem argumentError_orient_of_lt {a : Half} (ha : 3 < a.toNat) : argumentError (.orient a) = some .orientRange :=
  if_pos ha

/-- A legal code fits the two bits of `ORIENT`. -/
theorem toNat_orientCode {a : Half} (ha : a.toNat ≤ 3) : (a.setWidth 2).toNat = a.toNat := by
  rw [BitVec.toNat_setWidth]
  exact Nat.mod_eq_of_lt (Nat.lt_succ_of_le ha)

/-- The two frames of ORIENT (R170, R172). -/
def orientFrames (d : Desc) (a : Half) : List FrameEvent := [.cmdByte d.opMadctl, .dataByte (orientByte d a.toNat)]

/-- The state in which ORIENT starts to send: the phase checked, the code stored (R170, R181). -/
def orientStart (a : Half) (s : State) : State :=
  setOrient (a.setWidth 2) (s.violateIf (s.phase != .awake) .orientNotAwake)

theorem exec_orient_of_legal {a : Half} (h : orientLegal a = true) (s : State) :
    exec (.orient a) s = .next (sendMadctl (a.setWidth 2) (orientStart a s)).retireSerializer.respondOk := if_pos h

theorem orientStart_emits {a : Half} (ha : a.toNat ≤ 3) {s : State} (hcs : s.lines.cs = true) :
    Emits (orientStart a s) (sendMadctl (a.setWidth 2) (orientStart a s)) (orientFrames s.desc a) := by
  have h := sendMadctl_emits (s := orientStart a s) (a.setWidth 2) hcs
  rw [orientRead_eq, toNat_orientCode ha] at h
  exact h

/-- ORIENT with a legal code completes in any state; from `CS = 1` it sends its two frames, and it leaves the lines
between frames, in data mode. -/
theorem exec_orient_of_le {a : Half} (ha : a.toNat ≤ 3) (s : State) :
    ∃ t, exec (.orient a) s = .next t ∧ DataReady t.lines ∧
      (s.lines.cs = true → AppendsFrames s t (orientFrames s.desc a)) := by
  have hexec := exec_orient_of_legal ((orientLegal_iff a).2 (Nat.not_lt.2 ha)) s
  have hready := sendMadctl_ready (a.setWidth 2) (orientStart a s)
  have hsent (hcs : s.lines.cs = true) := orientStart_emits ha hcs
  generalize sendMadctl (a.setWidth 2) (orientStart a s) = u at hexec hready hsent
  exact ⟨_, hexec, hready, fun hcs => (show Waves s u _ from (hsent hcs).waves).appends⟩

/-- ORIENT stores its code. -/
theorem Accepted.orient_toNat {a : Half} {s t : State} (ha : a.toNat ≤ 3) (h : Accepted (.orient a) s t) :
    t.orient.toNat = a.toNat :=
  (congrArg BitVec.toNat h.orient).trans (toNat_orientCode ha)

/-- Settles O23: a legal code sends the two frames (`exec_orient_of_le`) and leaves the registers as every accepted
request does (`exec_accepted`); any other code is the exception (`exec_rejected`). -/
theorem orientStoresAndSends : Obligations.OrientStoresAndSends := by
  refine fun a s => ⟨reqOp_reqWord _ _ _ _ _, fun ha hcs => ?_, fun hbad => ?_⟩
  · obtain ⟨t, hexec, ⟨hcs', hdc⟩, hframes⟩ := exec_orient_of_le ha s
    have hacc := exec_accepted hexec (argumentError_orient_of_le ha)
    exact ⟨t, hexec, hacc.respondedOk, hframes hcs, hacc.orient_toNat ha, hcs', hdc, hacc.lines_rst nofun,
      hacc.violates, hacc.config, hacc.phase, hacc.rstdone⟩
  · exact exec_rejected (argumentError_orient_of_lt hbad) s

/-- Whatever the state before it, an ORIENT with a legal code sends the frames its code and the descriptor give, stores
the code, keeps the descriptor, and ends with `CS = 1`. -/
theorem exec_orient_frames {a : Half} {s t : State} (ha : a.toNat ≤ 3) (hcs : s.lines.cs = true)
    (h : exec (.orient a) s = .next t) :
    AppendsFrames s t (orientFrames s.desc a) ∧ t.orient = a.setWidth 2 ∧ t.desc = s.desc ∧ t.lines.cs = true := by
  obtain ⟨t', hexec, ⟨hcs', -⟩, hframes⟩ := exec_orient_of_le ha s
  obtain rfl : t = t' := Host.Outcome.next.inj (h.symm.trans hexec)
  have hacc := exec_accepted h (argumentError_orient_of_le ha)
  obtain ⟨hdesc, -⟩ := hacc.config
  exact ⟨hframes hcs, hacc.orient, hdesc, hcs'⟩

/-- Two ORIENT requests with one code, from any two states of one descriptor, send the same frames and store the same
code (R173). -/
theorem exec_orient_same_frames {a : Half} {s s' t t' : State} (ha : a.toNat ≤ 3) (hcs : s.lines.cs = true)
    (hcs' : s'.lines.cs = true) (hdesc : s'.desc = s.desc) (h : exec (.orient a) s = .next t)
    (h' : exec (.orient a) s' = .next t') :
    ∃ fs, AppendsFrames s t fs ∧ AppendsFrames s' t' fs ∧ t'.orient = t.orient ∧ t.orient.toNat = a.toNat := by
  obtain ⟨hframes, horient, -, -⟩ := exec_orient_frames ha hcs h
  obtain ⟨hframes', horient', -, -⟩ := exec_orient_frames ha hcs' h'
  rw [hdesc] at hframes'
  exact ⟨_, hframes, hframes', horient'.trans horient.symm, (congrArg _ horient).trans (toNat_orientCode ha)⟩

/-- Settles O24: the frames are the same from any two states of one descriptor (`exec_orient_same_frames`), and the
state after an ORIENT is another state of the same descriptor, with `CS = 1`. -/
theorem orientIsIdempotent : Obligations.OrientIsIdempotent := by
  refine ⟨fun a s s' t t' ha hcs hcs' hdesc h h' => exec_orient_same_frames ha hcs hcs' hdesc h h',
    fun a s t u ha hcs h h' => ?_⟩
  obtain ⟨-, -, hdesc, hcs'⟩ := exec_orient_frames ha hcs h
  exact exec_orient_same_frames ha hcs hcs' hdesc h h'

/-! ## The corner check of WINDOW and FLUSH (R178, R192) -/

theorem windowOrdered_of_le {x1 y1 x2 y2 : Half} (hx : x1.toNat ≤ x2.toNat) (hy : y1.toNat ≤ y2.toNat) :
    windowOrdered x1 y1 x2 y2 = true :=
  (windowOrdered_iff x1 y1 x2 y2).2 (by omega)

/-- By `argumentError_flush`, also the argument check of FLUSH. -/
theorem argumentError_window_of_le {x1 y1 x2 y2 : Half} (hx : x1.toNat ≤ x2.toNat) (hy : y1.toNat ≤ y2.toNat) :
    argumentError (.window x1 y1 x2 y2) = none :=
  if_neg (by omega)

/-- By `argumentError_flush`, also the argument check of FLUSH. -/
theorem argumentError_window_of_lt {x1 y1 x2 y2 : Half} (h : x2.toNat < x1.toNat ∨ y2.toNat < y1.toNat) :
    argumentError (.window x1 y1 x2 y2) = some .windowOrder :=
  if_pos h

/-! ## WINDOW -/

theorem requestFrames_length (s : State) (x1 y1 x2 y2 : Half) : (requestFrames s x1 y1 x2 y2).length = 11 := by
  unfold requestFrames
  split <;> rfl

theorem exec_window_of_ordered {x1 y1 x2 y2 : Half} (ho : windowOrdered x1 y1 x2 y2 = true) (s : State) :
    exec (.window x1 y1 x2 y2) s = .next (setWindow ⟨x1, y1, x2, y2⟩
      (s.violateIf (s.phase != .awake) .windowNotAwake)).retireSerializer.retireWindow.respondOk := if_pos ho

/-- WINDOW with ordered corners completes in any state; from `CS = 1` it sends the frames of the window, and it leaves
the lines between frames, in command mode (R176, R180). -/
theorem exec_window_of_le {x1 y1 x2 y2 : Half} (hx : x1.toNat ≤ x2.toNat) (hy : y1.toNat ≤ y2.toNat) (s : State) :
    ∃ t, exec (.window x1 y1 x2 y2) s = .next t ∧ t.lines.cs = true ∧ t.lines.dc = false ∧
      (s.lines.cs = true → AppendsFrames s t (requestFrames s x1 y1 x2 y2)) := by
  have hexec := exec_window_of_ordered (windowOrdered_of_le hx hy) s
  have hlines := sendWindow_lines (latchPanel (latchWindow ⟨x1, y1, x2, y2⟩
    (s.violateIf (s.phase != .awake) .windowNotAwake)))
  have hsent (hcs : s.lines.cs = true) :=
    setWindow_emits (s := s.violateIf (s.phase != .awake) .windowNotAwake) ⟨x1, y1, x2, y2⟩ hcs
  rw [← setWindow] at hlines
  generalize setWindow ⟨x1, y1, x2, y2⟩ (s.violateIf (s.phase != .awake) .windowNotAwake) = u at hexec hlines hsent
  obtain ⟨hcs', hdc⟩ := hlines
  exact ⟨_, hexec, hcs', hdc, fun hcs =>
    (show Waves s u (requestFrames s x1 y1 x2 y2) from (hsent hcs).waves).appends⟩

/-- Settles O25: ordered corners send the 11 frames (`exec_window_of_le`) and leave the registers as every
accepted request does (`exec_accepted`); any other corners are the exception (`exec_rejected`). -/
theorem windowSendsElevenFrames : Obligations.WindowSendsElevenFrames := by
  refine fun x1 y1 x2 y2 s => ⟨reqOp_reqWord _ _ _ _ _, fun hbad => ?_, fun hx hy hcs => ?_⟩
  · exact exec_rejected (argumentError_window_of_lt hbad) s
  · obtain ⟨t, hexec, hcs', hdc, hframes⟩ := exec_window_of_le hx hy s
    have hacc := exec_accepted hexec (argumentError_window_of_le hx hy)
    exact ⟨t, hexec, hacc.respondedOk, hframes hcs, requestFrames_length _ _ _ _ _, hcs', hdc, hacc.lines_rst nofun,
      hacc.violates, hacc.config, hacc.orient, hacc.phase, hacc.rstdone⟩

/-! ## The range check of WINDOW and FLUSH (R177) -/

theorem mem_reasonIf {c : Prop} [Decidable c] {r x : Violation} : x ∈ reasonIf c r ↔ c ∧ x = r := by
  by_cases hc : c <;> simp [reasonIf, hc]

/-- Where the reasons added are a reason of the phase and that of the range, WINDOW_RANGE is added exactly when the
range is violated. -/
theorem Violates.windowRange_mem_iff {s t : State} {c p : Prop} [Decidable c] [Decidable p] {r : Violation}
    (h : Violates s t (reasonIf c r ++ reasonIf p .windowRange)) (hr : .windowRange ≠ r) :
    .windowRange ∈ t.violReasons ↔ .windowRange ∈ s.violReasons ∨ p := by
  obtain ⟨hmem, -⟩ := h
  simp [hmem, mem_reasonIf, hr]

/-- With every limit at 0xFFFF the range is violated exactly when a sum needs more than 16 bits. -/
theorem rangeViolated_iff_overflow {s : State} (hc0 : s.desc.colMax0 = 0xFFFF) (hr0 : s.desc.rowMax0 = 0xFFFF)
    (hc1 : s.desc.colMax1 = 0xFFFF) (hr1 : s.desc.rowMax1 = 0xFFFF) (x2 y2 : Half) :
    rangeViolated s x2 y2 ↔
      65536 ≤ x2.toNat + (if s.orient.toNat < 2 then s.offx else s.offy).toNat ∨
      65536 ≤ y2.toNat + (if s.orient.toNat < 2 then s.offy else s.offx).toNat := by
  have hlimit (n : Nat) : (0xFFFF : Half).toNat < n ↔ 65536 ≤ n := Iff.rfl
  simp only [rangeViolated, hc0, hr0, hc1, hr1, hlimit]
  split <;> rfl

/-- A reason that was added sets `VIOL`. -/
theorem Violates.viol_of_mem {s t : State} {rs : List Violation} {r : Violation} (h : Violates s t rs) (hr : r ∈ rs) :
    t.viol = true := by
  obtain ⟨-, hviol⟩ := h
  rw [hviol, List.isEmpty_eq_false_iff_exists_mem.2 ⟨r, hr⟩, Bool.not_false, Bool.or_true]

/-- FLUSH with ordered corners completes if the attached buffer covers the window (R97). -/
theorem exec_flush_of_covers {x1 y1 x2 y2 : Half} {s : State} (hx : x1.toNat ≤ x2.toNat) (hy : y1.toNat ≤ y2.toNat)
    (hcov : payloadCovers (.flush x1 y1 x2 y2) s) : ∃ t, exec (.flush x1 y1 x2 y2) s = .next t :=
  execFlush_completes (windowOrdered_of_le hx hy) (hcov ⟨hx, hy⟩)

/-- Settles O26: both requests add WINDOW_RANGE exactly when the range is violated (`exec_accepted`,
`Violates.windowRange_mem_iff`), and WINDOW sends its frames whether it is or not (`exec_window_of_le`). -/
theorem windowRangeIsRecorded : Obligations.WindowRangeIsRecorded := by
  refine ⟨fun x1 y1 x2 y2 s hx hy hcs hrange => ?_, fun x1 y1 x2 y2 s hx hy hc0 hr0 hc1 hr1 => ?_⟩
  · obtain ⟨t, hexec, -, -, hframes⟩ := exec_window_of_le hx hy s
    have hacc := exec_accepted hexec (argumentError_window_of_le hx hy)
    exact ⟨t, hexec, hacc.respondedOk,
      hacc.violates.viol_of_mem (List.mem_append_right _ (mem_reasonIf.2 ⟨hrange, rfl⟩)),
      (hacc.violates.windowRange_mem_iff nofun).2 (.inr hrange), hframes hcs⟩
  · rw [← rangeViolated_iff_overflow hc0 hr0 hc1 hr1 x2 y2]
    refine ⟨?_, fun hcov => ?_⟩
    · obtain ⟨t, hexec, -⟩ := exec_window_of_le hx hy s
      have hacc := exec_accepted hexec (argumentError_window_of_le hx hy)
      exact ⟨t, hexec, hacc.violates.windowRange_mem_iff nofun⟩
    · obtain ⟨t, hexec⟩ := exec_flush_of_covers hx hy hcov
      have hacc := exec_accepted hexec (argumentError_window_of_le hx hy)
      exact ⟨t, hexec, hacc.violates.windowRange_mem_iff nofun⟩

/-- Settles O27: unordered corners are the exception for both requests (`exec_rejected`); ordered ones are carried to
their end, WINDOW always and FLUSH if its buffer covers the window, and the response is OK (`exec_accepted`). -/
theorem malformedWindowIsRejected : Obligations.MalformedWindowIsRejected := by
  refine fun x1 y1 x2 y2 s => ⟨fun hbad => ?_, fun hx hy => ⟨?_, fun hcov => ?_⟩⟩
  · have herror := argumentError_window_of_lt hbad
    exact ⟨exec_rejected herror s, exec_rejected ((argumentError_flush x1 y1 x2 y2).trans herror) s⟩
  · obtain ⟨t, hexec, -⟩ := exec_window_of_le hx hy s
    exact ⟨t, hexec, (exec_accepted hexec (argumentError_window_of_le hx hy)).respondedOk⟩
  · obtain ⟨t, hexec⟩ := exec_flush_of_covers hx hy hcov
    exact ⟨t, hexec, (exec_accepted hexec (argumentError_window_of_le hx hy)).respondedOk⟩

end Sys2Proof.Machine
end

section
/-! PROOFS. FLUSH, SLPIN and SLPOUT (spec/43_blit_power.md R190, R192, R197, R198): the pixel stream that follows a
window, and the one command frame of the two power requests. -/

namespace Sys2Proof.Machine

/-! ## FLUSH -/

/-- The stream of a FLUSH starts between frames, in data mode. -/
theorem flushStart_ready (x1 y1 x2 y2 : Half) (s : State) : DataReady (flushStart x1 y1 x2 y2 s).lines := by
  obtain ⟨hcs, -⟩ := sendWindow_lines (latchPanel (latchWindow ⟨x1, y1, x2, y2⟩
    (s.violateIf (s.phase != .awake) .flushNotAwake)))
  exact ⟨hcs, rfl⟩

/-- A memory lists one run of bytes of each length from offset 0 on. -/
theorem Memory.holds_inj {m : Memory} {bs cs : List Byte} (hlen : bs.length = cs.length) (hb : m.holds bs)
    (hc : m.holds cs) : bs = cs :=
  List.ext_getElem?' fun k hk => (hb k (by omega)).symm.trans (hc k (by omega))

/-- FLUSH with ordered corners completes if the attached buffer holds its `N` bytes; from `CS = 1` it sends the frames
of the window and then those bytes, and it leaves the lines between frames, in data mode (R190). -/
theorem exec_flush_of_holds {x1 y1 x2 y2 : Half} {bytes : List Byte} {s : State} (hx : x1.toNat ≤ x2.toNat)
    (hy : y1.toNat ≤ y2.toNat) (hlen : bytes.length = pixelBytes x1 y1 x2 y2) (hholds : s.pixbuf.holds bytes) :
    ∃ t, exec (.flush x1 y1 x2 y2) s = .next t ∧ DataReady t.lines ∧
      (s.lines.cs = true → AppendsFrames s t (requestFrames s x1 y1 x2 y2 ++ bytes.map .dataByte)) := by
  have ho := windowOrdered_of_le hx hy
  obtain ⟨u, hstream, hready, -⟩ := streamLoop_emits bytes 0 _ (flushStart_ready x1 y1 x2 y2 s) fun k hk => by
    rw [Nat.zero_add, pixRead_flushStart]
    exact hholds k hk
  rw [hlen] at hstream
  have hexec := (execFlush_eq_next_iff ho).2 ⟨u, hstream, rfl⟩
  refine ⟨flushEnd u, hexec, hready, fun hcs => ?_⟩
  obtain ⟨bytes', hlen', hholds', hwaves, -⟩ := flush_waves hexec ho hcs
  obtain rfl : bytes' = bytes := Memory.holds_inj (hlen'.trans hlen.symm) hholds' hholds
  exact hwaves.appends

/-- Settles O28: unordered corners are the exception (`exec_rejected`); ordered ones send the window and the bytes the
buffer holds (`exec_flush_of_holds`) and leave the registers as every accepted request does (`exec_accepted`). -/
theorem flushStreamsTheBuffer : Obligations.FlushStreamsTheBuffer := by
  refine fun x1 y1 x2 y2 bytes s => ⟨reqOp_reqWord _ _ _ _ _, fun hbad => ?_, fun hx hy hcs hlen hholds => ?_⟩
  · exact exec_rejected ((argumentError_flush x1 y1 x2 y2).trans (argumentError_window_of_lt hbad)) s
  · obtain ⟨t, hexec, ⟨hcs', hdc⟩, hframes⟩ := exec_flush_of_holds hx hy hlen hholds
    have hacc := exec_accepted hexec ((argumentError_flush x1 y1 x2 y2).trans (argumentError_window_of_le hx hy))
    have hcount : (requestFrames s x1 y1 x2 y2 ++ bytes.map FrameEvent.dataByte).length = 11 + bytes.length := by
      rw [List.length_append, requestFrames_length, List.length_map]
    exact ⟨t, hexec, hacc.respondedOk, hframes hcs, hcount, hcs', hdc, hacc.lines_rst nofun, hacc.violates,
      hacc.config, hacc.orient, hacc.phase, hacc.rstdone⟩

/-! ## SLPIN and SLPOUT -/

/-- What the two power requests have in common: the reason `r` if `c`, the command frame of `b`, the phase `p`, and the
response (R197, R198). -/
def powerCommand (c : Bool) (r : Violation) (b : Byte) (p : Phase) (s : State) : State :=
  (setPhase p ((s.violateIf c r).cmd b)).retireSerializer.respondOk

theorem exec_slpin (s : State) :
    exec .slpin s =
      .next (powerCommand (s.phase != .awake) .slpinNotAwake s.desc.opSlpin s.phase.afterSlpin s) := rfl

theorem exec_slpout (s : State) :
    exec .slpout s =
      .next (powerCommand (s.phase != .asleep) .slpoutNotAsleep s.desc.opSlpout s.phase.afterSlpout s) := rfl

/-- From `CS = 1` it sends its one command frame, and it leaves the lines between frames, in command mode. -/
theorem powerCommand_sends (c : Bool) (r : Violation) (b : Byte) (p : Phase) {s : State} (hcs : s.lines.cs = true) :
    AppendsFrames s (powerCommand c r b p s) [.cmdByte b] ∧ (powerCommand c r b p s).lines.cs = true ∧
      (powerCommand c r b p s).lines.dc = false := by
  have hsent : Waves s ((s.violateIf c r).cmd b) [.cmdByte b] := (cmd_emits (s := s.violateIf c r) b hcs).waves
  have hlines : (powerCommand c r b p s).lines = _ := cmd_lines (s.violateIf c r) b
  exact ⟨(hsent.congr rfl rfl).appends, congrArg Lines.cs hlines, congrArg Lines.dc hlines⟩

theorem nextPhase_slpin (p : Phase) : nextPhase .slpin p = p.afterSlpin := by cases p <;> rfl

theorem nextPhase_slpout (p : Phase) : nextPhase .slpout p = p.afterSlpout := by cases p <;> rfl

/-- Settles O30: the one frame is that of `powerCommand_sends`, and the registers are those of every accepted request
(`exec_accepted`), the phase read as `Phase.afterSlpin` (`nextPhase_slpin`). -/
theorem slpinSendsOneFrame : Obligations.SlpinSendsOneFrame := by
  refine fun s hcs => ⟨reqOp_reqWord _ _ _ _ _, _, exec_slpin s, ?_⟩
  have hacc := exec_accepted (exec_slpin s) rfl
  obtain ⟨hframes, hcs', hdc⟩ :=
    powerCommand_sends (s.phase != .awake) .slpinNotAwake s.desc.opSlpin s.phase.afterSlpin hcs
  exact ⟨hacc.respondedOk, hframes, hacc.phase.trans (nextPhase_slpin _), hcs', hdc, hacc.lines_rst nofun,
    hacc.violates, hacc.config, hacc.orient, hacc.rstdone⟩

/-- Settles O31: as for SLPIN, the phase read as `Phase.afterSlpout` (`nextPhase_slpout`). -/
theorem slpoutSendsOneFrame : Obligations.SlpoutSendsOneFrame := by
  refine fun s hcs => ⟨reqOp_reqWord _ _ _ _ _, _, exec_slpout s, ?_⟩
  have hacc := exec_accepted (exec_slpout s) rfl
  obtain ⟨hframes, hcs', hdc⟩ :=
    powerCommand_sends (s.phase != .asleep) .slpoutNotAsleep s.desc.opSlpout s.phase.afterSlpout hcs
  exact ⟨hacc.respondedOk, hframes, hacc.phase.trans (nextPhase_slpout _), hcs', hdc, hacc.lines_rst nofun,
    hacc.violates, hacc.config, hacc.orient, hacc.rstdone⟩

end Sys2Proof.Machine
end

section
/-! PROOFS. HWRESET and POWERON (spec/44_power_on_reset.md R210 to R213): the pulse, if there is a reset line, and the
table that follows it. -/

namespace Sys2Proof.Machine

/-! ## Runs of two requests -/

theorem Waves.trans {s t u : State} {fs gs : List FrameEvent} (h : Waves s t fs) (k : Waves t u gs) :
    Waves s u (fs ++ gs) := by
  obtain ⟨es, htrace, hwave⟩ := h
  obtain ⟨es', htrace', hwave'⟩ := k
  exact ⟨es ++ es', by rw [htrace', htrace, List.append_assoc], hwave.append hwave'⟩

/-- An accepted request that breaks no precondition leaves `VIOL` and `VIOL_REASONS` (R15). -/
theorem Accepted.viol_kept {i : Instr} {s t : State} (h : Accepted i s t) (hnone : violationsOf i s = []) :
    t.viol = s.viol ∧ t.violReasons = s.violReasons := by
  obtain ⟨-, hviol⟩ := h.violates
  refine ⟨?_, h.reasonsKept hnone⟩
  rw [hviol, hnone, List.isEmpty_nil, Bool.not_true, Bool.or_false]

/-! ## HWRESET -/

/-- The events of HWRESET: the pulse, if there is a reset line (R210, R211). -/
def hwresetEvents (d : Desc) : List Event := if d.hasReset then pulseEvents d else []

/-- How they read in the frame trace. -/
def hwresetFrames (d : Desc) : List FrameEvent :=
  if d.hasReset then [.rst false, .delay d.resetLowMs, .rst true, .delay d.resetHighMs] else []

/-- The state HWRESET leaves: the legality check, the pulse, then the registers of R210 and the response. -/
def hwresetEnd (s : State) : State :=
  ({ resetPulse (s.violateIf (s.phase != .uninitialized) .hwresetAfterInit) with
    rstdone := true, phase := .uninitialized } : State).respondOk

theorem exec_hwreset (s : State) : exec .hwreset s = .next (hwresetEnd s) := rfl

theorem resetPulse_of_not_hasReset {s : State} (h : ¬ s.desc.hasReset = true) : resetPulse s = s := if_neg h

/-- From a reset line at rest the pulse records its events and returns the line to its level; without a reset line
there is nothing to record. -/
theorem resetPulse_of_rstIdle {s : State} (hrst : RstIdle s) :
    (resetPulse s).trace = s.trace ++ hwresetEvents s.desc ∧ (resetPulse s).lines = s.lines := by
  by_cases hline : s.desc.hasReset = true
  · obtain ⟨hsent, hlines⟩ := resetPulse_sends hline (hrst.trans (if_pos hline))
    rw [hwresetEvents, if_pos hline]
    exact ⟨hsent.trace, hlines⟩
  · rw [resetPulse_of_not_hasReset hline, hwresetEvents, if_neg hline, List.append_nil]
    exact ⟨rfl, rfl⟩

theorem hwresetEnd_of_rstIdle {s : State} (hrst : RstIdle s) :
    (hwresetEnd s).trace = s.trace ++ hwresetEvents s.desc ∧ (hwresetEnd s).lines = s.lines :=
  resetPulse_of_rstIdle (s := s.violateIf (s.phase != .uninitialized) .hwresetAfterInit) hrst

/-- Settles O32: the events and the levels are those of `hwresetEnd_of_rstIdle`, and the registers are those of every
accepted request (`exec_accepted`). -/
theorem hwresetPulsesTheLine : Obligations.HwresetPulsesTheLine := by
  refine fun s hrst => ⟨reqOp_reqWord _ _ _ _ _, hwresetEnd s, exec_hwreset s, ?_⟩
  have hacc : Accepted .hwreset s (hwresetEnd s) := exec_accepted (exec_hwreset s) rfl
  obtain ⟨htrace, hlines⟩ := hwresetEnd_of_rstIdle hrst
  exact ⟨hacc.respondedOk, htrace, hlines, hacc.rstdone, hacc.phase, hacc.violates, hacc.config, hacc.orient⟩

/-! ## POWERON -/

/-- With the lines at rest the events of HWRESET are a wave that ends where it starts. -/
theorem hwresetEvents_wave {ls : Lines} {d : Desc} (hcs : ls.cs = true)
    (hrst : ls.rst = if d.hasReset then some true else none) : Wave ls (hwresetEvents d) (hwresetFrames d) ls := by
  by_cases hline : d.hasReset = true
  · rw [hwresetEvents, hwresetFrames, if_pos hline, if_pos hline]
    exact pulse_wave d hcs (hrst.trans (if_pos hline))
  · rw [hwresetEvents, hwresetFrames, if_neg hline, if_neg hline]
    exact Wave.nil ls

theorem hwresetEnd_waves {s : State} (hcs : s.lines.cs = true) (hrst : RstIdle s) :
    Waves s (hwresetEnd s) (hwresetFrames s.desc) := by
  obtain ⟨htrace, hlines⟩ := hwresetEnd_of_rstIdle hrst
  refine ⟨hwresetEvents s.desc, htrace, ?_⟩
  rw [hlines]
  exact hwresetEvents_wave hcs hrst

/-- HWRESET in `Uninitialized` breaks no precondition (R212). -/
theorem violationsOf_hwreset_of_uninitialized {s : State} (h : s.phase = .uninitialized) :
    violationsOf .hwreset s = [] :=
  if_neg (not_not_intro h)

/-- INIT in `Uninitialized`, after a hardware reset, breaks no precondition (R158). -/
theorem violationsOf_init_of_reset {s : State} (hphase : s.phase = .uninitialized) (hdone : s.rstdone = true) :
    violationsOf .init s = [] := by
  simp [violationsOf, reasonIf, hphase, hdone]

/-- Settles O33: HWRESET leaves what INIT needs to break no precondition, `Uninitialized` with `RSTDONE` set
(`hwreset_accepted`), and levels, descriptor and orientation as it found them, so INIT completes and its frames follow
those of the pulse (`Waves.trans`). -/
theorem poweronReachesAwake : Obligations.PoweronReachesAwake := by
  refine ⟨rfl, fun s rows hwf hrows hphase hcs hrst => ?_⟩
  have hreset : Accepted .hwreset s (hwresetEnd s) := hwreset_accepted (exec_hwreset s)
  have hpulse : Waves s (hwresetEnd s) (hwresetFrames s.desc) := hwresetEnd_waves hcs hrst
  obtain ⟨-, hlines⟩ := hwresetEnd_of_rstIdle hrst
  obtain ⟨hviol, hreasons⟩ := hreset.viol_kept (violationsOf_hwreset_of_uninitialized hphase)
  obtain ⟨hdesc, -⟩ := hreset.config
  have horient : (hwresetEnd s).orient = s.orient := hreset.orient
  rw [← hlines] at hcs
  rw [← hdesc] at hwf hrows
  obtain ⟨u, hexec, -⟩ := exec_init_completes hwf hrows hcs
  have hinit : Accepted .init (hwresetEnd s) u := init_accepted hexec
  obtain ⟨htable, -⟩ := init_waves hexec hcs hrows
  obtain ⟨hviol', hreasons'⟩ := hinit.viol_kept (violationsOf_init_of_reset hreset.phase hreset.rstdone)
  rw [hdesc, horient] at htable
  exact ⟨hwresetEnd s, u, exec_hwreset s, hexec, hinit.phase, hviol'.trans hviol, hreasons'.trans hreasons,
    hinit.respondedOk, (hpulse.trans htable).appends⟩

end Sys2Proof.Machine
end

section
/-! PROOFS. The idle engine waits (spec/70_reset_and_hazards.md R251). -/

namespace Sys2Proof.Machine

/-- Settles O3: engine reset (`step_resetWith`) and every other idle state with an empty port (`step_of_idle`) take the
branch of `step` that answers the state unchanged. -/
theorem idleEngineWaits : Obligations.IdleEngineWaits :=
  ⟨fun _ => step_resetWith, fun _ => step_of_idle⟩

end Sys2Proof.Machine
end

section
/-! PROOFS. The decoder and the encoder of the request word agree (spec/30_encoding.md R90, R92, R95, R107). -/

namespace Sys2Proof

/-! ## Decoding a word of the encoder -/

theorem decode_reqWord_window (a b c d : Half) : decode (reqWord 0x05 a b c d) = .ok (.window a b c d) := by
  simp [decode, reqOp_reqWord, reqA_reqWord, reqB_reqWord, reqC_reqWord, reqD_reqWord]

theorem decode_reqWord_flush (a b c d : Half) : decode (reqWord 0x06 a b c d) = .ok (.flush a b c d) := by
  simp [decode, reqOp_reqWord, reqA_reqWord, reqB_reqWord, reqC_reqWord, reqD_reqWord]

/-- Settles O8, operation by operation: the word of each is built from fields, and decoding such a word reads the
fields the operation uses. -/
theorem decodeOfEncodeIsTheRequest : Obligations.DecodeOfEncodeIsTheRequest := by
  intro i
  cases i with
  | sendbits v n => exact decode_reqWord_sendbits v n 0 0
  | sendbyte v => rw [encode_sendbyte]; exact decode_reqWord_sendbyte 0 v 0 0 0
  | init => exact decode_reqWord_init 0 0 0 0
  | orient k => exact decode_reqWord_orient k 0 0 0
  | window x1 y1 x2 y2 => exact decode_reqWord_window x1 y1 x2 y2
  | flush x1 y1 x2 y2 => exact decode_reqWord_flush x1 y1 x2 y2
  | slpin => exact decode_reqWord_slpin 0 0 0 0
  | slpout => exact decode_reqWord_slpout 0 0 0 0
  | hwreset => exact decode_reqWord_hwreset 0 0 0 0

/-! ## Decoding any word -/

/-- The opcode of an accepted word is that of the row of the table its `op` selects. -/
theorem opcodeOf_of_decode {w : ReqWord} {i : Instr} (h : decode w = .ok i) : opcodeOf i = reqOp w := by
  apply BitVec.eq_of_toNat_eq
  unfold decode at h
  split at h <;> cases h <;> exact Eq.symm ‹(reqOp w).toNat = _›

theorem opcodeOf_bounds (i : Instr) : 1 ≤ (opcodeOf i).toNat ∧ (opcodeOf i).toNat ≤ 9 := by
  cases i <;> simp [opcodeOf]

/-- A word is refused exactly for a reserved `op`, with the error that names it (R95). -/
theorem decode_of_reserved {w : ReqWord} (h : (reqOp w).toNat = 0 ∨ 10 ≤ (reqOp w).toNat) :
    decode w = .error (.reservedOp (reqOp w)) := by
  unfold decode
  split
  case h_10 => rfl
  all_goals omega

theorem decode_of_listed {w : ReqWord} (h1 : 1 ≤ (reqOp w).toNat) (h9 : (reqOp w).toNat ≤ 9) :
    ∃ i, decode w = .ok i := by
  interval_cases hop : (reqOp w).toNat <;> simp [decode, hop]

/-- Settles O10: a request read has its opcode, which is 1 to 9 (`opcodeOf_of_decode`); each of these is a row of the
table (`decode_of_listed`). -/
theorem decoderAcceptsExactlyTheTable : Obligations.DecoderAcceptsExactlyTheTable := by
  refine fun w => ⟨⟨fun ⟨i, h⟩ => ?_, fun ⟨h1, h9⟩ => decode_of_listed h1 h9⟩, fun i => opcodeOf_of_decode⟩
  rw [← opcodeOf_of_decode h]
  exact opcodeOf_bounds i

/-- Settles O11, word by word. -/
theorem specWordsDecode : Obligations.SpecWordsDecode := by
  unfold Obligations.SpecWordsDecode
  decide

end Sys2Proof

namespace Sys2Proof.Machine

/-- Settles O14: the assembler is run on each text. -/
theorem assemblerGivesTheSpecWords : Obligations.AssemblerGivesTheSpecWords := by
  unfold Obligations.AssemblerGivesTheSpecWords
  decide +kernel

end Sys2Proof.Machine
end

section
/-! PROOFS. Packed init tables read back (spec/30_encoding.md R101 to R103), and the well-formed descriptor
(spec/00_scope.md R8). -/

namespace Sys2Proof

/-! ## The `ctl` byte -/

theorem toNat_ctlCount (ctl : Byte) : (ctl.extractLsb' 0 7).toNat = ctl.toNat % 128 := by
  rw [BitVec.extractLsb'_toNat, Nat.shiftRight_zero]

/-- Bit 7 is the delay flag. -/
theorem getLsbD_ctlDelay (ctl : Byte) : ctl.getLsbD 7 = decide (128 ≤ ctl.toNat) := by
  rw [← BitVec.msb_eq_getLsbD_last, BitVec.msb_eq_decide]

theorem decodeCtl_of_le {ctl : Byte} (h : ctl.toNat % 128 ≤ 15) :
    decodeCtl ctl = .ok (.count (ctl.toNat % 128) (decide (128 ≤ ctl.toNat))) := by
  have hend : ctl ≠ 0xFF := by rintro rfl; exact absurd h (by decide)
  simp only [decodeCtl, if_neg hend, toNat_ctlCount, getLsbD_ctlDelay]
  exact if_pos h

theorem decodeCtl_of_lt {ctl : Byte} (hend : ctl ≠ 0xFF) (h : 15 < ctl.toNat % 128) :
    decodeCtl ctl = .error (.badCount ctl) := by
  simp only [decodeCtl, if_neg hend, toNat_ctlCount]
  exact if_neg (Nat.not_le.2 h)

/-- The byte of a count is the count, and 128 more with the delay flag. -/
theorem toNat_encodeCtl_count {n : Nat} (hn : n ≤ 15) (d : Bool) :
    (encodeCtl (.count n d)).toNat = n + if d then 128 else 0 := by
  interval_cases n <;> cases d <;> rfl

theorem decodeCtl_encodeCtl {c : Ctl} (h : ∀ n d, c = .count n d → n ≤ 15) : decodeCtl (encodeCtl c) = .ok c := by
  cases c with
  | stop => rfl
  | count n d =>
    have hn := h n d rfl
    have hbyte := toNat_encodeCtl_count hn d
    rw [decodeCtl_of_le (by rw [hbyte]; split <;> omega), hbyte]
    cases d <;> simp <;> omega

/-! ## Rows -/

theorem InitRow.count_le {r : InitRow} (h : r.parameterCount ≤ 15) (n : Nat) (d : Bool) (hc : r.ctl = .count n d) :
    n ≤ 15 := by
  rw [InitRow.parameterCount, hc] at h
  exact h

theorem encodeRow_length {r : InitRow} (h : r.params.length = 16) : (encodeRow r).length = 18 := by
  simp [encodeRow, h]

theorem decodeRow_encodeRow {r : InitRow} (more : List Byte) (hp : r.params.length = 16)
    (hc : r.parameterCount ≤ 15) : decodeRow (encodeRow r ++ more) = .ok (r, more) := by
  have hdrop : (r.params ++ encodeCtl r.ctl :: more).drop Config.paramCap = encodeCtl r.ctl :: more :=
    List.drop_left' hp
  have htake : (r.params ++ encodeCtl r.ctl :: more).take Config.paramCap = r.params := List.take_left' hp
  simp only [encodeRow, List.cons_append, List.append_assoc, List.nil_append, decodeRow, hdrop,
    htake, decodeCtl_encodeCtl (InitRow.count_le hc)]

/-- Settles O12: the row by `decodeRow_encodeRow`, the byte 0xFF by evaluation, the other `ctl` bytes by their count. -/
theorem packedRowsRoundTrip : Obligations.PackedRowsRoundTrip :=
  ⟨fun _ more hp hc => ⟨encodeRow_length hp, decodeRow_encodeRow more hp hc⟩, rfl, fun _ h => decodeCtl_of_le h,
    fun _ hend h => decodeCtl_of_lt hend h⟩

/-! ## Tables -/

theorem decodeTableFuel_encodeTable {rows : List InitRow} {last : InitRow} (more : List Byte) {fuel : Nat}
    (hfuel : rows.length < fuel) (hrows : ∀ r ∈ rows, r.params.length = 16 ∧ r.parameterCount ≤ 15 ∧ r.ctl ≠ .stop)
    (hlast : last.params.length = 16) (hstop : last.ctl = .stop) :
    decodeTableFuel fuel (encodeTable (rows ++ [last]) ++ more) = .ok (rows ++ [last]) := by
  induction rows generalizing fuel with
  | nil =>
    obtain ⟨fuel, rfl⟩ := Nat.exists_eq_add_of_lt hfuel
    have hcount : last.parameterCount ≤ 15 := by simp [InitRow.parameterCount, hstop]
    simp [encodeTable, decodeTableFuel, decodeRow_encodeRow more hlast hcount, hstop]
  | cons r rows ih =>
    obtain ⟨fuel, rfl⟩ := Nat.exists_eq_add_of_lt hfuel
    obtain ⟨hp, hc, hne⟩ := hrows r List.mem_cons_self
    have hrest := ih (fuel := rows.length + 1 + fuel) (by omega) fun r' h' => hrows r' (List.mem_cons_of_mem r h')
    have hsplit : encodeTable (r :: rows ++ [last]) ++ more =
        encodeRow r ++ (encodeTable (rows ++ [last]) ++ more) := by
      rw [← List.append_assoc]; rfl
    rw [hsplit, List.length_cons, decodeTableFuel, decodeRow_encodeRow _ hp hc]
    simp only [if_neg hne]
    rw [hrest, List.cons_append]

theorem length_le_encodeTable_length (rows : List InitRow) : rows.length ≤ (encodeTable rows).length := by
  induction rows with
  | nil => exact Nat.le_refl _
  | cons r rows ih => simp [encodeTable, encodeRow] at ih ⊢; omega

/-- Settles O13, by induction over the rows; there are no more rows than bytes, so the fuel is enough. -/
theorem packedTablesRoundTrip : Obligations.PackedTablesRoundTrip := by
  intro rows last more hrows hlast hstop
  have hlen := length_le_encodeTable_length (rows ++ [last])
  refine decodeTableFuel_encodeTable more ?_ hrows hlast hstop
  simp only [List.length_append, List.length_singleton] at hlen ⊢
  omega

/-! ## Well-formed descriptors -/

/-- R8 (c) in the words of the rule. -/
theorem Desc.hookWf_iff (d : Desc) (rows : List InitRow) :
    d.hookWf rows = true ↔ ∀ h, d.orientHook = some h →
      (rows.filter (fun r => r.opcode == h)).length ≤ 1 ∧ ∀ r ∈ rows, r.opcode = h → r.parameterCount = 1 := by
  cases hk : d.orientHook with
  | none => simp [Desc.hookWf, hk]
  | some h =>
    simp only [Desc.hookWf, hk, Bool.and_eq_true, decide_eq_true_eq, List.all_eq_true, List.mem_filter, beq_iff_eq,
      and_imp, Option.some.injEq, forall_eq']

theorem InitRow.wf_iff (r : InitRow) : r.wf = true ↔ r.parameterCount ≤ 15 ∧ r.params.length = 16 := by
  rw [InitRow.wf, Bool.and_eq_true, decide_eq_true_eq, decide_eq_true_eq]
  rfl

theorem Desc.wf_iff (d : Desc) : d.wf = true ↔
    ∃ rows, InitRow.beforeEnd d.initTable = some rows ∧
      (∀ r ∈ rows, r.parameterCount ≤ 15 ∧ r.params.length = 16) ∧
      (∀ h, d.orientHook = some h →
        (rows.filter (fun r => r.opcode == h)).length ≤ 1 ∧
        ∀ r ∈ rows, r.opcode = h → r.parameterCount = 1) ∧
      100 ≤ d.resetLowMs ∧ 100 ≤ d.resetHighMs ∧ d.settleMs = 100 := by
  cases hrows : InitRow.beforeEnd d.initTable with
  | none => simp [Desc.wf, hrows]
  | some rows =>
    simp only [Desc.wf, hrows, Bool.and_eq_true, List.all_eq_true, decide_eq_true_eq, Desc.hookWf_iff, InitRow.wf_iff,
      Option.some.injEq, exists_eq_left', and_assoc]
    exact Iff.rfl

end Sys2Proof

namespace Sys2Proof.Machine

/-- Settles O7: the check of a descriptor is the conjunction of R8's conditions (`Desc.wf_iff`), and both `step` and
INIT test it before anything else. -/
theorem illFormedDescriptorIsRefused : Obligations.IllFormedDescriptorIsRefused := by
  refine ⟨Desc.wf_iff, fun s hwf => ?_⟩
  have hne : ¬ s.desc.wf = true := Bool.eq_false_iff.1 hwf
  exact ⟨if_neg hne, if_neg hne⟩

end Sys2Proof.Machine
end

section
/-! PROOFS. Every request, accepted or rejected (spec/30_encoding.md R96; spec/60_exceptions.md R221 to R233): when it
completes, and what it leaves. -/

namespace Sys2Proof.Machine

/-! ## A request that completes -/

theorem exec_rejected_eq {i : Instr} {s t : State} {c : Cause} (h : exec i s = .next t)
    (ha : argumentError i = some c) : t = s.raise c :=
  Host.Outcome.next.inj (h.symm.trans (exec_rejected ha s))

/-- A request that completes was accepted (`Accepted`), or its argument check failed and it raised the cause. -/
theorem exec_next_cases {i : Instr} {s t : State} (h : exec i s = .next t) :
    (argumentError i = none ∧ Accepted i s t) ∨ ∃ c, argumentError i = some c ∧ t = s.raise c := by
  cases ha : argumentError i with
  | none => exact .inl ⟨rfl, exec_accepted h ha⟩
  | some c => exact .inr ⟨c, rfl, exec_rejected_eq h ha⟩

/-- A request that completes, rejected ones included, leaves the descriptor, the offsets, the buffer and the port. -/
theorem exec_configKept {i : Instr} {s t : State} (h : exec i s = .next t) : ConfigKept s t := by
  obtain ⟨-, hacc⟩ | ⟨c, -, rfl⟩ := exec_next_cases h
  · exact hacc.config
  · exact ⟨rfl, rfl, rfl, rfl, rfl⟩

/-- A request that completes, rejected ones included, appends events that lead from its lines to those it leaves, and
of these only HWRESET's move the reset line and only HWRESET's and INIT's are delays. -/
theorem exec_events {i : Instr} {s t : State} (h : exec i s = .next t) :
    ∃ es, t.trace = s.trace ++ es ∧ s.lines.replay es = t.lines ∧ (i ≠ .hwreset → ∀ v, Event.line .rst v ∉ es) ∧
      (i ≠ .hwreset → i ≠ .init → ∀ ms, Event.delay ms ∉ es) := by
  obtain ⟨-, hacc⟩ | ⟨c, -, rfl⟩ := exec_next_cases h
  · exact hacc.events
  · exact ⟨[], (List.append_nil _).symm, rfl, fun _ _ => List.not_mem_nil, fun _ _ _ => List.not_mem_nil⟩

/-! ## The response -/

theorem Cause.code_bounds (c : Cause) : 1 ≤ c.code.toNat ∧ c.code.toNat ≤ 4 := by
  cases c <;> decide

/-- Settles O35: an accepted request responds OK (`exec_accepted`), a rejected one with its cause
(`exec_rejected`). -/
theorem responseMatchesTheArgumentCheck : Obligations.ResponseMatchesTheArgumentCheck := by
  intro i s t h
  obtain ⟨ha, hacc⟩ | ⟨c, ha, rfl⟩ := exec_next_cases h
  · exact ⟨hacc.busy, fun _ => hacc.rsp, fun c hc => nomatch ha.symm.trans hc⟩
  · exact ⟨rfl, fun hn => (nomatch ha.symm.trans hn), fun _ _ => ⟨rfl, c.code_bounds⟩⟩

/-- Settles O36: the phase is that of every accepted request (`exec_accepted`), or left by the exception. -/
theorem requestsFollowThePhaseTable : Obligations.RequestsFollowThePhaseTable := by
  refine fun i s t h => ⟨fun ha => (exec_accepted h ha).phase, fun c ha => ?_⟩
  rw [exec_rejected_eq h ha, State.raise_phase]

/-- Settles O37: the reasons are those of every accepted request (`exec_accepted`), or left by the exception. -/
theorem violationsFollowTheTable : Obligations.ViolationsFollowTheTable := by
  refine fun i s t h => ⟨fun ha => (exec_accepted h ha).violates, fun c ha => ?_⟩
  rw [exec_rejected_eq h ha, State.raise_viol, State.raise_violReasons]
  exact ⟨rfl, rfl⟩

/-! ## Completion -/

theorem exec_init_of_wf {s : State} (hwf : s.desc.wf = true) : ∃ t, exec .init s = .next t := by
  obtain ⟨rows, hrows, -⟩ := rowOk_of_wf hwf
  obtain ⟨u, hloop⟩ := initLoop_some (s := initStart s) hrows (beforeEnd_length hrows)
  exact ⟨initEnd u, exec_init_of_loop hwf hloop⟩

theorem bitCountLegal_of_argumentError {v n : Half} (h : argumentError (.sendbits v n) = none) :
    bitCountLegal n = true := by
  by_contra hn
  exact nomatch h.symm.trans (argumentError_sendbits_iff.2 ⟨hn, rfl⟩)

theorem bitCount_bounds {n : Half} (h : bitCountLegal n = true) : 1 ≤ n.toNat ∧ n.toNat ≤ 16 := by
  rw [bitCountLegal_iff] at h
  omega

theorem orientLegal_of_argumentError {k : Half} (h : argumentError (.orient k) = none) : orientLegal k = true := by
  by_contra hk
  exact nomatch h.symm.trans (argumentError_orient_iff.2 ⟨hk, rfl⟩)

theorem orientLegal_le {k : Half} (h : orientLegal k = true) : k.toNat ≤ 3 := Nat.not_lt.1 ((orientLegal_iff k).1 h)

/-- By `argumentError_flush`, also for FLUSH. -/
theorem windowOrdered_of_argumentError {x1 y1 x2 y2 : Half} (h : argumentError (.window x1 y1 x2 y2) = none) :
    windowOrdered x1 y1 x2 y2 = true := by
  by_contra ho
  exact nomatch h.symm.trans (argumentError_window_iff.2 ⟨ho, rfl⟩)

theorem windowOrdered_le {x1 y1 x2 y2 : Half} (h : windowOrdered x1 y1 x2 y2 = true) :
    x1.toNat ≤ x2.toNat ∧ y1.toNat ≤ y2.toNat := by
  rw [windowOrdered_iff] at h
  omega

theorem payloadCovers_flush_iff {x1 y1 x2 y2 : Half} {s : State} (ho : windowOrdered x1 y1 x2 y2 = true) :
    payloadCovers (.flush x1 y1 x2 y2) s ↔
      ∀ k, k < pixelBytes x1 y1 x2 y2 → (Memory.read s.pixbuf k).isSome = true :=
  ⟨fun h => h (windowOrdered_le ho), fun h _ => h⟩

/-- A request whose argument check passes completes: INIT for want of a well-formed table, and FLUSH for want of a
pixel byte, are the only ones that could fail to. -/
theorem exec_completes {i : Instr} {s : State} (hwf : s.desc.wf = true) (hcov : payloadCovers i s)
    (ha : argumentError i = none) : ∃ t, exec i s = .next t := by
  cases i with
  | sendbits v n => exact ⟨_, exec_sendbits_of_legal (bitCountLegal_of_argumentError ha) s⟩
  | sendbyte v => exact ⟨_, rfl⟩
  | init => exact exec_init_of_wf hwf
  | orient k => exact ⟨_, exec_orient_of_legal (orientLegal_of_argumentError ha) s⟩
  | window x1 y1 x2 y2 => exact ⟨_, exec_window_of_ordered (windowOrdered_of_argumentError ha) s⟩
  | flush x1 y1 x2 y2 =>
    rw [argumentError_flush] at ha
    have ho := windowOrdered_of_argumentError ha
    exact execFlush_completes ho ((payloadCovers_flush_iff ho).1 hcov)
  | slpin => exact ⟨_, exec_slpin s⟩
  | slpout => exact ⟨_, exec_slpout s⟩
  | hwreset => exact ⟨_, exec_hwreset s⟩

/-- Settles O38: an accepted request completes by `exec_completes`, a rejected one by `exec_rejected`. -/
theorem everyRequestCompletes : Obligations.EveryRequestCompletes := by
  intro i s hwf hcov
  cases ha : argumentError i with
  | none => exact exec_completes hwf hcov ha
  | some c => exact ⟨_, exec_rejected ha s⟩

/-- Settles O39: the request completes (`exec_completes`), as every accepted one responds OK, and breaks no
precondition, so `VIOL` and its reasons stay (`Accepted.viol_kept`). -/
theorem hostDutyKeepsTheRunSafe : Obligations.HostDutyKeepsTheRunSafe := by
  rintro i s hwf ⟨ha, hnone, hcov⟩
  obtain ⟨t, h⟩ := exec_completes hwf hcov ha
  have hacc := exec_accepted h ha
  obtain ⟨hviol, hreasons⟩ := hacc.viol_kept hnone
  exact ⟨t, h, hacc.respondedOk, hviol.trans, hreasons⟩

/-! ## What stays -/

/-- Settles O41: the attached buffer itself stays (`exec_configKept`). -/
theorem requestsWriteNoMemory : Obligations.RequestsWriteNoMemory := by
  intro i s t h k
  obtain ⟨-, -, -, hpix, -⟩ := exec_configKept h
  rw [hpix]

/-- Settles O44, from `exec_events`; events that do not move the reset line leave its level. -/
theorem delaysAndResetLineAreConfined : Obligations.DelaysAndResetLineAreConfined := by
  intro i s t h
  obtain ⟨es, htrace, hreplay, hrst, hdelay⟩ := exec_events h
  refine ⟨es, htrace, fun hi => ⟨hrst hi, ?_⟩, hdelay⟩
  rw [← hreplay]
  exact Lines.replay_rst _ _ (hrst hi)

/-- Settles O46: what a request appends from lines at rest is a wave (`exec_waves`). -/
theorem requestsKeepTheLineDiscipline : Obligations.RequestsKeepTheLineDiscipline := by
  intro i s t hcs hclk hrst h
  obtain ⟨⟨fs, es, htrace, hwave⟩, hcs', hrst'⟩ := exec_waves h hcs hrst
  exact ⟨es, htrace, hwave.disc hclk, hwave.lines, hcs', hwave.clk hclk, hrst'⟩

end Sys2Proof.Machine
end

section
/-! PROOFS. A step (spec/00_scope.md R16, R17; spec/60_exceptions.md R225): what it can do, and what it keeps. -/

namespace Sys2Proof.Machine

/-! ## The cases of a step -/

theorem step_of_decode_error {s : State} {r : Request} {rest : List Request} {e : DecodeError}
    (hwf : s.desc.wf = true) (hbusy : s.busy = false) (hport : s.pending = r :: rest)
    (hdec : decode r.word = .error e) :
    step s = .next ((s.acceptNext r rest).raise .badOp) := by
  simp [step, hwf, hbusy, hport, hdec]

/-- A step that has a next state waits, or takes the request at the head of the port and rejects its `op`, or takes it
and executes it. -/
theorem step_next_cases {s t : State} (h : step s = .next t) :
    t = s ∨ ∃ r rest, s.pending = r :: rest ∧
      (t = (s.acceptNext r rest).raise .badOp ∨
        ∃ i, decode r.word = .ok i ∧ exec i (s.acceptNext r rest) = .next t) := by
  unfold step at h
  split at h
  case isFalse => cases h
  split at h
  case isTrue => cases h
  split at h
  case h_1 => exact .inl (Host.Outcome.next.inj h).symm
  case h_2 r rest hport =>
    refine .inr ⟨r, rest, hport, ?_⟩
    split at h
    case h_1 => exact .inl (Host.Outcome.next.inj h).symm
    case h_2 i hdec => exact .inr ⟨i, hdec, h⟩

/-- Settles O4: this is the branch of a decoded request, and acceptance is these three writes. -/
theorem stepRunsTheDecodedRequest : Obligations.StepRunsTheDecodedRequest :=
  fun _ _ _ _ hwf hbusy hport hdec => step_of_decode hwf hbusy hport hdec

/-- Settles O5: a reserved `op` by the step's own rejection, which undoes `BUSY = 1`; a code or a count out of range by
the request's (`exec_rejected`). -/
theorem reservedEncodingsAreRejected : Obligations.ReservedEncodingsAreRejected := by
  refine ⟨fun s r rest hwf hbusy hport hop => ?_, fun s a ha => ?_, fun s a b hb => ?_⟩
  · rw [step_of_decode_error hwf hbusy hport (decode_of_reserved hop)]
    simp only [State.raise, State.acceptNext, State.accept, ← hbusy]
    rfl
  · exact exec_rejected (argumentError_orient_of_lt ha) s
  · have hbad : ¬ bitCountLegal b = true := by rw [bitCountLegal_iff]; omega
    exact exec_rejected (argumentError_sendbits_iff.2 ⟨hbad, rfl⟩) s

/-- Settles O6: `BUSY` is tested before the port is read. -/
theorem busyPortAcceptsNothing : Obligations.BusyPortAcceptsNothing := by
  intro s hwf hbusy
  simp [step, hwf, hbusy]

/-! ## What every step keeps -/

/-- A step keeps the descriptor and the offsets. -/
theorem step_config {s t : State} (h : step s = .next t) :
    t.desc = s.desc ∧ t.offx = s.offx ∧ t.offy = s.offy := by
  obtain rfl | ⟨r, rest, -, rfl | ⟨i, -, hexec⟩⟩ := step_next_cases h
  · exact ⟨rfl, rfl, rfl⟩
  · exact ⟨rfl, rfl, rfl⟩
  · obtain ⟨hdesc, hoffx, hoffy, -⟩ := exec_configKept hexec
    exact ⟨hdesc, hoffx, hoffy⟩

/-- Settles O43: the step appends the events of its request. -/
theorem traceOnlyGrows : Obligations.TraceOnlyGrows := by
  intro s t h
  obtain rfl | ⟨r, rest, -, rfl | ⟨i, -, hexec⟩⟩ := step_next_cases h
  · exact ⟨[], (List.append_nil _).symm⟩
  · exact ⟨[], (List.append_nil _).symm⟩
  · obtain ⟨es, htrace, -⟩ := exec_events hexec
    exact ⟨es, htrace⟩

/-- Only ORIENT with a legal code changes `ORIENT`, to that code. -/
theorem exec_orient_changed {i : Instr} {s t : State} (h : exec i s = .next t) (hne : t.orient ≠ s.orient) :
    ∃ a, i = .orient a ∧ a.toNat ≤ 3 ∧ t.orient.toNat = a.toNat := by
  obtain ⟨ha, hacc⟩ | ⟨c, -, rfl⟩ := exec_next_cases h
  · cases i with
    | orient a =>
      have hle := orientLegal_le (orientLegal_of_argumentError ha)
      exact ⟨a, rfl, hle, hacc.orient_toNat hle⟩
    | _ => exact absurd hacc.orient hne
  · exact absurd rfl hne

/-- Settles O40: the descriptor and the offsets by `step_config`, `ORIENT` by `exec_orient_changed`. -/
theorem onlyOrientWritesConfiguration : Obligations.OnlyOrientWritesConfiguration := by
  intro s t h
  obtain ⟨hdesc, hoffx, hoffy⟩ := step_config h
  refine ⟨hdesc, hoffx, hoffy, fun hne => ?_⟩
  obtain rfl | ⟨r, rest, hport, rfl | ⟨i, hdec, hexec⟩⟩ := step_next_cases h
  · exact absurd rfl hne
  · exact absurd rfl hne
  · obtain ⟨a, rfl, ha, hcode⟩ := exec_orient_changed hexec hne
    exact ⟨r, rest, a, hport, hdec, ha, hcode⟩

/-! ## Several instances (R235) -/

theorem stepAt_getElem?_ne {sys sys' : Instances} {j k : Nat} (h : stepAt k sys = some sys') (hne : j ≠ k) :
    sys'[j]? = sys[j]? := by
  unfold stepAt at h
  split at h
  · cases h
  · split at h
    · cases h
      exact List.getElem?_set_ne hne.symm
    · cases h
    · cases h

/-- Settles O51: presenting and stepping write the one place of the list. -/
theorem instancesAreIndependent : Obligations.InstancesAreIndependent :=
  fun _ _ _ _ _ hne => ⟨List.getElem?_modify_ne _ _ hne.symm, fun h => stepAt_getElem?_ne h hne⟩

end Sys2Proof.Machine
end

section
/-! PROOFS. The invariant between requests (spec/10_state.md R37; spec/70_reset_and_hazards.md R265): reset meets it
and every step keeps it, clause group by clause group: the trace, the ghost flags, the response. -/

namespace Sys2Proof.Machine

/-- Settles O2: every clause is a value R36 gives, and there is no event yet. -/
theorem resetMeetsInvariant : Obligations.ResetMeetsInvariant := fun _ hwf =>
  { descWf := hwf, offx := rfl, offy := rfl, cs := rfl, clk := rfl, rst := rfl, idle := rfl, traced := rfl
    discipline := rfl, closed := rfl, viol := rfl, reasons := rfl, rsp := rfl
    resetFirst := fun _ _ hphase => absurd rfl hphase, pixbuf := rfl }

/-! ## The trace -/

/-- The scan of TRACE ends at the lines, with no frame open. -/
theorem Invariant.scan {s : State} (h : Invariant s) :
    Scan.after ⟨Lines.reset s.desc.hasReset, none⟩ s.trace = ⟨s.lines, none⟩ := by
  have hlines := (Scan.after_lines ⟨Lines.reset s.desc.hasReset, none⟩ s.trace).trans h.traced
  have hclosed := h.closed
  generalize Scan.after ⟨Lines.reset s.desc.hasReset, none⟩ s.trace = c at hlines hclosed
  cases c
  simp only at hlines hclosed
  rw [hlines, hclosed]

/-- Settles O48: the scan of the events before the step ends between frames (`Invariant.scan`), where that of the step's
own events starts. -/
theorem frameTraceGrowsByTheRequest : Obligations.FrameTraceGrowsByTheRequest := by
  intro s t hinv h
  obtain ⟨es, htrace⟩ := traceOnlyGrows s t h
  obtain ⟨hdesc, -⟩ := step_config h
  refine ⟨es, htrace, ?_⟩
  rw [hdesc, htrace, framesOf, framesFrom, Scan.frames_append, hinv.scan]
  rfl

/-! ## The ghost flags -/

/-- Adding reasons to a set keeps `VIOL` set exactly when a reason is recorded (R28). -/
theorem Violates.viol_iff {s t : State} {rs : List Violation} (h : Violates s t rs)
    (hs : s.viol = !s.violReasons.isEmpty) : t.viol = !t.violReasons.isEmpty := by
  obtain ⟨hmem, hviol⟩ := h
  have hempty : t.violReasons = [] ↔ s.violReasons = [] ∧ rs = [] := by
    simp only [List.eq_nil_iff_forall_not_mem, hmem, not_or, forall_and]
  rw [hviol, hs, Bool.eq_iff_iff]
  simp [hempty, imp_iff_not_or]

theorem Violates.eq_nil_of_viol {s t : State} {rs : List Violation} (h : Violates s t rs) (hv : t.viol = false) :
    s.viol = false ∧ rs = [] := by
  obtain ⟨-, hviol⟩ := h
  rw [hv] at hviol
  simpa using hviol.symm

/-- No request but INIT leaves `Uninitialized`. -/
theorem nextPhase_uninitialized {i : Instr} (hi : i ≠ .init) : nextPhase i .uninitialized = .uninitialized := by
  cases i with
  | init => exact absurd rfl hi
  | _ => rfl

/-- An accepted request keeps the order of hardware reset and first INIT (R29, R158): INIT itself checks it, and no
other request leaves `Uninitialized`. -/
theorem Accepted.resetFirst {i : Instr} {s t : State} (h : Accepted i s t)
    (hs : s.viol = false → s.desc.hasReset = true → s.phase ≠ .uninitialized → s.rstdone = true)
    (hv : t.viol = false) (hline : s.desc.hasReset = true) (hphase : t.phase ≠ .uninitialized) : t.rstdone = true := by
  obtain ⟨hviol, hnone⟩ := h.violates.eq_nil_of_viol hv
  rw [h.rstdone]
  split
  · rfl
  by_cases hi : i = .init
  · subst hi
    obtain ⟨-, hreset⟩ := List.append_eq_nil_iff.1 hnone
    have := reasonIf_nil hreset
    simpa [hline] using this
  · refine hs hviol hline fun huninit => hphase ?_
    rw [h.phase, huninit, nextPhase_uninitialized hi]

/-! ## Every step -/

theorem rspLegal_rejected (c : Cause) : rspLegal ⟨statusInvalid, c.code⟩ = true := by
  cases c <;> decide

/-- What an accepted request finds: the invariant but for `BUSY = 1`. -/
theorem Invariant.acceptNext {s : State} (h : Invariant s) (r : Request) (rest : List Request) :
    Invariant { s.acceptNext r rest with busy := false } :=
  { h with idle := rfl, pixbuf := Memory.wf_ofBytes 0 r.pix }

/-- Rejection, by the argument check or by the `op`, writes only `BUSY` and a response that R221 lists. -/
theorem Invariant.raise {s : State} (h : Invariant { s with busy := false }) (c : Cause) : Invariant (s.raise c) :=
  { h with idle := rfl, rsp := rspLegal_rejected c }

/-- An accepted request extends TRACE by a wave and leaves the registers that `Accepted` names. -/
theorem Invariant.accepted {i : Instr} {s t : State} {fs : List FrameEvent} (h : Invariant { s with busy := false })
    (hacc : Accepted i s t) (hw : Waves s t fs) (hcs : t.lines.cs = true) (hrst : t.lines.rst = s.lines.rst) :
    Invariant t := by
  obtain ⟨es, htrace, hwave⟩ := hw
  obtain ⟨hdesc, hoffx, hoffy, hpix, -⟩ := hacc.config
  exact {
    descWf := by rw [hdesc]; exact h.descWf
    offx := by rw [hdesc, hoffx]; exact h.offx
    offy := by rw [hdesc, hoffy]; exact h.offy
    cs := hcs
    clk := hwave.clk h.clk
    rst := by rw [hdesc, hrst]; exact h.rst
    idle := hacc.busy
    traced := by rw [hdesc, htrace, Lines.replay_append, h.traced, hwave.lines]
    discipline := by rw [hdesc, htrace, disciplined_append, h.discipline, h.traced, hwave.disc h.clk, Bool.and_self]
    closed := by rw [hdesc, htrace, Scan.after_append, h.scan, hwave.closed]
    viol := hacc.violates.viol_iff h.viol
    reasons := hacc.reasons h.reasons
    rsp := by rw [hacc.rsp]; rfl
    resetFirst := by rw [hdesc]; exact hacc.resetFirst h.resetFirst
    pixbuf := by rw [hpix]; exact h.pixbuf }

theorem Invariant.exec {i : Instr} {s t : State} (h : Invariant { s with busy := false }) (hexec : exec i s = .next t) :
    Invariant t := by
  obtain ⟨-, hacc⟩ | ⟨c, -, rfl⟩ := exec_next_cases hexec
  · obtain ⟨⟨fs, hw⟩, hcs, hrst⟩ := exec_waves hexec h.cs h.rst
    exact h.accepted hacc hw hcs hrst
  · exact h.raise c

/-- Settles O47, by the cases of a step (`step_next_cases`): waiting changes nothing, and what acceptance leaves of the
invariant is kept by a rejection (`Invariant.raise`) and by a request (`Invariant.exec`). -/
theorem everyStepKeepsTheInvariant : Obligations.EveryStepKeepsTheInvariant := by
  intro s t h hstep
  obtain rfl | ⟨r, rest, -, rfl | ⟨i, -, hexec⟩⟩ := step_next_cases hstep
  · exact h
  · exact (h.acceptNext r rest).raise .badOp
  · exact (h.acceptNext r rest).exec hexec

end Sys2Proof.Machine
end

section
/-! PROOFS. One transfer on the lines: its events, its frame, and their number (spec/40_bus_transport.md R130, R138,
R139). -/

namespace Sys2Proof.Machine

/-- Settles O16: the events are those of a frame from lines at rest (`frameEvents_of_rest`). -/
theorem sendBitsLineTrace : Obligations.SendBitsLineTrace := by
  intro s v n hn hm hcs hclk
  rw [(Sends.sendBits s v hm).trace, frameEvents_of_rest v n hcs hclk]
  exact ⟨rfl, sendBits_lines v hn hm⟩

/-- Settles O17: the transfer emits one frame in the mode `DC` has (`sendBits_emits`). -/
theorem sendBitsIsOneFrame : Obligations.SendBitsIsOneFrame := by
  intro s v n hn hm hcs
  have h := (sendBits_emits v hn hm hcs).appends
  refine ⟨fun hdc => ?_, fun hdc => ?_⟩
  · rw [hdc] at h; exact h
  · rw [hdc] at h; exact h

/-! ## Counts of the rounds (R139) -/

theorem roundEvents_length (cur : Level) (bits : List Level) :
    (roundEvents cur bits).length = 2 * bits.length + levelChanges cur bits := by
  induction bits generalizing cur with
  | nil => rfl
  | cons b bs ih =>
    by_cases hb : b = cur <;> simp [roundEvents, levelChanges, ih, hb] <;> omega

/-- The rounds of a frame leave chip-select alone. -/
theorem count_cs_roundEvents (v cur : Level) (bits : List Level) :
    (roundEvents cur bits).count (.line .cs v) = 0 := by
  induction bits generalizing cur with
  | nil => rfl
  | cons b bs ih => by_cases hb : b = cur <;> simp [roundEvents, ih, hb]

/-- Each round drives the clock low once and high once. -/
theorem count_clk_roundEvents (v cur : Level) (bits : List Level) :
    (roundEvents cur bits).count (.line .clk v) = bits.length := by
  induction bits generalizing cur with
  | nil => rfl
  | cons b bs ih => by_cases hb : b = cur <;> cases v <;> simp [roundEvents, ih, hb]

/-- The data line moves where the bits change its level. -/
theorem count_mosi_roundEvents (cur : Level) (bits : List Level) :
    (roundEvents cur bits).count (.line .mosi false) + (roundEvents cur bits).count (.line .mosi true) =
      levelChanges cur bits := by
  induction bits generalizing cur with
  | nil => rfl
  | cons b bs ih =>
    have := ih b
    by_cases hb : b = cur <;> cases b <;> simp [roundEvents, levelChanges, hb] at this ⊢ <;> omega

/-- Settles O18: chip-select falls and rises once around the rounds of the frame, which are counted one kind of event
at a time. -/
theorem sendBitsEventCount : Obligations.SendBitsEventCount := by
  intro s v n hn hm hcs hclk
  obtain ⟨htrace, -⟩ := sendBitsLineTrace s v n hn hm hcs hclk
  refine ⟨_, htrace, ?_⟩
  have hlen := roundEvents_length s.lines.mosi (bitsOf v n)
  have hmosi := count_mosi_roundEvents s.lines.mosi (bitsOf v n)
  rw [bitsOf_length] at hlen
  refine ⟨?_, ?_, ?_, ?_, ?_, ?_⟩
  · simp only [List.length_cons, List.length_append, List.length_nil, hlen]
    omega
  · simp [count_cs_roundEvents]
  · simp [count_cs_roundEvents]
  · simp [count_clk_roundEvents, bitsOf_length]
  · simp [count_clk_roundEvents, bitsOf_length]
  · simpa using hmosi

end Sys2Proof.Machine
end

section
/-! PROOFS. The size of what INIT emits (spec/41_command_sequencer.md R157) and the lower bounds on durations
(spec/70_reset_and_hazards.md R270, R271). -/

namespace Sys2Proof.Machine

/-! ## The frames of the init rows, counted -/

theorem rowBytes_length {d : Desc} {r : InitRow} (k : Nat) (h : RowOk d r) :
    (rowBytes d k r).length = r.parameterCount := by
  obtain ⟨hcount, hparams, hhook⟩ := h
  unfold rowBytes
  split
  · next hk => exact (hhook hk).symm
  · rw [List.length_take, hparams]; omega

/-- The opcode is the one command frame, the parameters are the data frames, and the delay is there if asked for. -/
theorem rowFrames_counts {d : Desc} {r : InitRow} (k : Nat) (h : RowOk d r) :
    commandFrames (rowFrames d k r) = 1 ∧ dataFrames (rowFrames d k r) = r.parameterCount ∧
      delayEvents (rowFrames d k r) = if r.delayAfter then 1 else 0 := by
  cases hdelay : r.delayAfter <;>
    simp [commandFrames, dataFrames, delayEvents, rowFrames, hdelay, List.countP_cons, Function.comp_def,
      FrameEvent.cmdByte, FrameEvent.dataByte, FrameEvent.isCmd, FrameEvent.isData, FrameEvent.isDelay, rowBytes_length k h]

theorem tableFrames_counts {d : Desc} {rows : List InitRow} (k : Nat) (h : ∀ r ∈ rows, RowOk d r) :
    commandFrames (rows.flatMap (rowFrames d k)) = rows.length ∧
      dataFrames (rows.flatMap (rowFrames d k)) = (rows.map InitRow.parameterCount).sum ∧
      delayEvents (rows.flatMap (rowFrames d k)) = (rows.filter InitRow.delayAfter).length := by
  induction rows with
  | nil => exact ⟨rfl, rfl, rfl⟩
  | cons r rows ih =>
    obtain ⟨hcmd, hdata, hdelay⟩ := rowFrames_counts k (h r List.mem_cons_self)
    obtain ⟨icmd, idata, idelay⟩ := ih fun r' h' => h r' (List.mem_cons_of_mem r h')
    simp only [commandFrames, dataFrames, delayEvents] at hcmd hdata hdelay icmd idata idelay ⊢
    simp only [List.flatMap_cons, List.countP_append, hcmd, hdata, hdelay, icmd, idata, idelay, List.length_cons,
      List.map_cons, List.sum_cons, List.filter_cons]
    refine ⟨Nat.add_comm _ _, trivial, ?_⟩
    split
    · exact Nat.add_comm _ _
    · exact Nat.zero_add _

/-- Frames and delays are all there is where the reset line does not move. -/
theorem length_eq_counts {fs : List FrameEvent} (h : ∀ v, FrameEvent.rst v ∉ fs) :
    fs.length = commandFrames fs + dataFrames fs + delayEvents fs := by
  induction fs with
  | nil => rfl
  | cons f fs ih =>
    have hlen := ih fun v hv => h v (List.mem_cons_of_mem f hv)
    simp only [commandFrames, dataFrames, delayEvents] at hlen ⊢
    cases f with
    | rst v => exact absurd List.mem_cons_self (h v)
    | _ =>
      simp only [List.length_cons, List.countP_cons, FrameEvent.isCmd, FrameEvent.isData, FrameEvent.isDelay, hlen,
        if_true, if_false, Bool.false_eq_true]
      omega

theorem rst_notMem_tableFrames (d : Desc) (k : Nat) (rows : List InitRow) (v : Level) :
    FrameEvent.rst v ∉ rows.flatMap (rowFrames d k) := by
  intro h
  obtain ⟨r, -, hr⟩ := List.mem_flatMap.1 h
  cases hdelay : r.delayAfter <;> simp [rowFrames, hdelay, FrameEvent.cmdByte, FrameEvent.dataByte] at hr

/-- Settles O22: INIT sends the frames of the rows (`exec_init_completes`, `init_waves`), counted row by row; a row
has at most 15 parameters. -/
theorem initSize : Obligations.InitSize := by
  intro s rows hwf hrows hcs
  obtain ⟨rows', hrows', hok⟩ := rowOk_of_wf hwf
  obtain rfl : rows = rows' := Option.some.inj (hrows.symm.trans hrows')
  obtain ⟨t, hexec, -⟩ := exec_init_completes hwf hrows hcs
  obtain ⟨hwave, -⟩ := init_waves hexec hcs hrows
  obtain ⟨hcmd, hdata, hdelay⟩ := tableFrames_counts s.orient.toNat hok
  have hparams : (rows.map InitRow.parameterCount).sum ≤ rows.length * 15 := by
    have := List.sum_le_card_nsmul (rows.map InitRow.parameterCount) 15 fun n hn => by
      obtain ⟨r, hr, rfl⟩ := List.mem_map.1 hn
      exact (hok r hr).1
    rwa [List.length_map] at this
  refine ⟨t, _, hexec, hwave.appends, hcmd, hdata, hdelay, length_eq_counts (rst_notMem_tableFrames _ _ _), ?_⟩
  rw [hcmd, hdata]
  omega

/-! ## Durations -/

theorem frameDelays_map_dataByte (bs : List Byte) : frameDelays (bs.map .dataByte) = 0 := by
  induction bs with
  | nil => rfl
  | cons b bs ih => exact ih

theorem framePulses_map_dataByte (bs : List Byte) : framePulses (bs.map .dataByte) = 8 * bs.length := by
  induction bs with
  | nil => rfl
  | cons b bs ih =>
    rw [List.map_cons, FrameEvent.dataByte, framePulses, ih, List.length_cons]
    omega

theorem frameDelays_rowFrames (d : Desc) (k : Nat) (r : InitRow) :
    frameDelays (rowFrames d k r) = if r.delayAfter then d.settleMs else 0 := by
  rw [rowFrames, FrameEvent.cmdByte, frameDelays, frameDelays_append, frameDelays_map_dataByte]
  split <;> simp [frameDelays]

theorem frameDelays_tableFrames (d : Desc) (k : Nat) (rows : List InitRow) :
    frameDelays (rows.flatMap (rowFrames d k)) = d.settleMs * (rows.filter InitRow.delayAfter).length := by
  induction rows with
  | nil => rfl
  | cons r rows ih =>
    rw [List.flatMap_cons, frameDelays_append, frameDelays_rowFrames, ih, List.filter_cons]
    split
    · rw [List.length_cons, Nat.mul_succ, Nat.add_comm]
    · exact Nat.zero_add _

theorem framePulses_requestFrames (s : State) (x1 y1 x2 y2 : Half) :
    framePulses (requestFrames s x1 y1 x2 y2) = 8 * 11 := by
  unfold requestFrames
  split <;> rfl

theorem Waves.delayTotal {s t : State} {fs : List FrameEvent} (h : Waves s t fs) :
    delayTotal t.trace = Machine.delayTotal s.trace + frameDelays fs := by
  obtain ⟨es, htrace, hwave⟩ := h
  rw [htrace, delayTotal_append, hwave.delays]

theorem Waves.clockPulses {s t : State} {fs : List FrameEvent} (h : Waves s t fs) :
    clockPulses t.trace = Machine.clockPulses s.trace + framePulses fs := by
  obtain ⟨es, htrace, hwave⟩ := h
  rw [htrace, clockPulses_append, hwave.pulses]

/-- INIT runs only with a well-formed descriptor (R8). -/
theorem wf_of_exec_init {s t : State} (h : exec .init s = .next t) : s.desc.wf = true := by
  by_contra hwf
  exact nomatch h.symm.trans (if_neg hwf)

theorem exec_init_delayTotal {s t : State} {rows : List InitRow}
    (hrows : InitRow.beforeEnd s.desc.initTable = some rows) (hcs : s.lines.cs = true) (h : exec .init s = .next t) :
    delayTotal t.trace = delayTotal s.trace + 100 * (rows.filter InitRow.delayAfter).length := by
  obtain ⟨hsettle, -⟩ := delays_of_wf (wf_of_exec_init h)
  obtain ⟨hwave, -⟩ := init_waves h hcs hrows
  rw [hwave.delayTotal, frameDelays_tableFrames, hsettle]

/-- What a drive records is no delay. -/
theorem delayTotal_driveEvents (ls : Lines) (l : Line) (v : Level) : delayTotal (ls.driveEvents l v) = 0 := by
  unfold Lines.driveEvents
  split
  · rfl
  · split <;> rfl

/-- With a reset line HWRESET holds it low and then high (R210), whatever its level was. -/
theorem hwresetEnd_delayTotal {s : State} (hline : s.desc.hasReset = true) :
    delayTotal (hwresetEnd s).trace = delayTotal s.trace + (s.desc.resetLowMs + s.desc.resetHighMs) := by
  have htrace : (hwresetEnd s).trace =
      (resetPulse (s.violateIf (s.phase != .uninitialized) .hwresetAfterInit)).trace := rfl
  have hline' : (s.violateIf (s.phase != .uninitialized) .hwresetAfterInit).desc.hasReset = true := hline
  rw [htrace, resetPulse, if_pos hline']
  simp [delayTotal_append, delayTotal_driveEvents, delayTotal]

theorem hwresetEnd_lines_cs (s : State) : (hwresetEnd s).lines.cs = s.lines.cs := by
  unfold hwresetEnd resetPulse
  split <;> rfl

/-- Settles O45: the delays of INIT are those of its rows (`exec_init_delayTotal`), before which HWRESET holds the reset
line twice (`hwresetEnd_delayTotal`), each for at least 100 ms; every frame of FLUSH has 8 pulses. -/
theorem minimumDurations : Obligations.MinimumDurations := by
  refine ⟨fun s t rows => exec_init_delayTotal, fun s t u rows hrows hcs hline hreset hinit => ?_,
    fun x1 y1 x2 y2 s t hx hy hcs h => ?_⟩
  · obtain rfl : t = hwresetEnd s := Host.Outcome.next.inj (hreset.symm.trans (exec_hwreset s))
    obtain ⟨hdesc, -⟩ := exec_configKept hreset
    have hlow := delays_of_wf (wf_of_exec_init hinit)
    rw [hdesc] at hlow
    obtain ⟨-, hlow, hhigh⟩ := hlow
    rw [← hdesc] at hrows
    rw [← hwresetEnd_lines_cs] at hcs
    rw [exec_init_delayTotal hrows hcs hinit, hwresetEnd_delayTotal hline]
    omega
  · obtain ⟨bytes, hlen, -, hwave, -⟩ := flush_waves h (windowOrdered_of_le hx hy) hcs
    rw [hwave.clockPulses, framePulses_append, framePulses_requestFrames, framePulses_map_dataByte, hlen]
    omega

end Sys2Proof.Machine
end

section
/-! PROOFS. The transient registers (spec/10_state.md R33; log entry 19): which of them each request writes. -/

namespace Sys2Proof.Machine

/-- The registers of the sequencer, of the window and of the pixel counter are unchanged: of the transient registers
only those of the serializer may differ. -/
def ControlKept (s t : State) : Prop := SequencerKept s t ∧ WindowKept s t ∧ t.pixcnt = s.pixcnt

/-- Sending frames writes no other transient register than the serializer's. -/
theorem Emits.controlKept {s t : State} {fs : List FrameEvent} (h : Emits s t fs) : ControlKept s t := by
  rw [h.kept]
  exact ⟨⟨rfl, rfl⟩, ⟨rfl, rfl, rfl, rfl, rfl⟩, rfl⟩

theorem resetPulse_kept (s : State) : SerializerKept s (resetPulse s) ∧ ControlKept s (resetPulse s) := by
  unfold resetPulse
  split <;> exact ⟨⟨rfl, rfl⟩, ⟨rfl, rfl⟩, ⟨rfl, rfl, rfl, rfl, rfl⟩, rfl⟩

/-- A rejected request writes none. -/
theorem raise_kept (s : State) (c : Cause) : SerializerKept s (s.raise c) ∧ ControlKept s (s.raise c) :=
  ⟨⟨rfl, rfl⟩, ⟨rfl, rfl⟩, ⟨rfl, rfl, rfl, rfl, rfl⟩, rfl⟩

theorem hwresetEnd_kept (s : State) : SerializerKept s (hwresetEnd s) ∧ ControlKept s (hwresetEnd s) :=
  resetPulse_kept (s.violateIf (s.phase != .uninitialized) .hwresetAfterInit)

theorem powerCommand_kept (c : Bool) (r : Violation) (b : Byte) (p : Phase) {s : State} (hcs : s.lines.cs = true) :
    ControlKept s (powerCommand c r b p s) := by
  have h := (cmd_emits (s := s.violateIf c r) b hcs).controlKept
  unfold powerCommand
  generalize (s.violateIf c r).cmd b = u at h ⊢
  exact h

theorem sendBits_kept {s : State} (v : Half) {n : Nat} (hn : 1 ≤ n) (hm : n ≤ 16) (hcs : s.lines.cs = true) :
    ControlKept s (s.sendBits v n).retireSerializer.respondOk := by
  have h := (sendBits_emits v hn hm hcs).controlKept
  generalize s.sendBits v n = u at h ⊢
  exact h

theorem exec_orient_kept {a : Half} {s t : State} (hcs : s.lines.cs = true) (ha : argumentError (.orient a) = none)
    (h : exec (.orient a) s = .next t) : ControlKept s t := by
  rw [exec_orient_of_legal (orientLegal_of_argumentError ha)] at h
  have hk := (sendMadctl_emits (s := orientStart a s) (a.setWidth 2) hcs).controlKept
  generalize sendMadctl (a.setWidth 2) (orientStart a s) = u at h hk
  cases h
  exact hk

/-- INIT leaves the window and the pixel counter. -/
theorem exec_init_kept {s t : State} (hcs : s.lines.cs = true) (h : exec .init s = .next t) :
    WindowKept s t ∧ t.pixcnt = s.pixcnt := by
  have hwf := wf_of_exec_init h
  obtain ⟨rows, hrows, hok⟩ := rowOk_of_wf hwf
  obtain ⟨u, hloop, -, -, -, hsent⟩ :=
    initLoop_emits rows s.desc.initTable.length (initStart s) hcs hrows (beforeEnd_length hrows) hok
  obtain rfl : t = initEnd u := Host.Outcome.next.inj (h.symm.trans (exec_init_of_loop hwf hloop))
  obtain ⟨-, hwin, hpix⟩ := hsent.controlKept
  exact ⟨hwin, hpix⟩

/-- The window sequence leaves the sequencer and the pixel counter. -/
theorem setWindow_kept {s : State} (w : Win) (hcs : s.lines.cs = true) :
    SequencerKept s (setWindow w s) ∧ (setWindow w s).pixcnt = s.pixcnt := by
  obtain ⟨hseq, -, hpix⟩ := (setWindow_emits w hcs).controlKept
  exact ⟨hseq, hpix⟩

theorem exec_window_kept {x1 y1 x2 y2 : Half} {s t : State} (hcs : s.lines.cs = true)
    (ha : argumentError (.window x1 y1 x2 y2) = none) (h : exec (.window x1 y1 x2 y2) s = .next t) :
    SequencerKept s t ∧ t.pixcnt = s.pixcnt := by
  rw [exec_window_of_ordered (windowOrdered_of_argumentError ha)] at h
  have hk := setWindow_kept (s := s.violateIf (s.phase != .awake) .windowNotAwake) ⟨x1, y1, x2, y2⟩ hcs
  generalize setWindow ⟨x1, y1, x2, y2⟩ (s.violateIf (s.phase != .awake) .windowNotAwake) = u at h hk
  cases h
  exact hk

theorem streamLoop_sequencerKept {n k : Nat} {s t : State} (hready : DataReady s.lines)
    (h : streamLoop n k s = some t) : SequencerKept s t := by
  obtain ⟨bytes, rfl, hbytes⟩ := streamLoop_bytes h
  obtain ⟨t', h', -, hsent⟩ := streamLoop_emits bytes k s hready hbytes
  obtain rfl : t = t' := Option.some.inj (h.symm.trans h')
  exact ⟨hsent.idx, hsent.pidx⟩

theorem flushStart_sequencerKept (x1 y1 x2 y2 : Half) {s : State} (hcs : s.lines.cs = true) :
    SequencerKept s (flushStart x1 y1 x2 y2 s) := by
  obtain ⟨hseq, -⟩ := setWindow_kept (s := s.violateIf (s.phase != .awake) .flushNotAwake) ⟨x1, y1, x2, y2⟩ hcs
  unfold flushStart
  generalize setWindow ⟨x1, y1, x2, y2⟩ (s.violateIf (s.phase != .awake) .flushNotAwake) = u at hseq ⊢
  exact hseq

theorem exec_flush_kept {x1 y1 x2 y2 : Half} {s t : State} (hcs : s.lines.cs = true)
    (ha : argumentError (.flush x1 y1 x2 y2) = none) (h : exec (.flush x1 y1 x2 y2) s = .next t) :
    SequencerKept s t := by
  obtain ⟨u, hstream, rfl⟩ := (execFlush_eq_next_iff (windowOrdered_of_argumentError ha)).1 h
  obtain ⟨hidx, hpidx⟩ := streamLoop_sequencerKept (flushStart_ready x1 y1 x2 y2 s) hstream
  obtain ⟨hidx', hpidx'⟩ := flushStart_sequencerKept x1 y1 x2 y2 hcs
  exact ⟨hidx.trans hidx', hpidx.trans hpidx'⟩

/-- Every request but INIT, WINDOW and FLUSH leaves all but the serializer. -/
theorem exec_controlKept {i : Instr} {s t : State} (hcs : s.lines.cs = true) (ha : argumentError i = none)
    (h : exec i s = .next t) (hinit : i ≠ .init)
    (hwin : ∀ x1 y1 x2 y2, i ≠ .window x1 y1 x2 y2 ∧ i ≠ .flush x1 y1 x2 y2) : ControlKept s t := by
  cases i with
  | sendbits v n =>
    have hl := bitCountLegal_of_argumentError ha
    obtain rfl : t = _ := Host.Outcome.next.inj (h.symm.trans (exec_sendbits_of_legal hl s))
    obtain ⟨hn, hm⟩ := bitCount_bounds hl
    exact sendBits_kept v hn hm hcs
  | sendbyte v =>
    cases h
    exact sendBits_kept (zext16 v) (n := 8) (by decide) (by decide) hcs
  | init => exact absurd rfl hinit
  | orient a => exact exec_orient_kept hcs ha h
  | window x1 y1 x2 y2 =>
    obtain ⟨hne, -⟩ := hwin x1 y1 x2 y2
    exact absurd rfl hne
  | flush x1 y1 x2 y2 =>
    obtain ⟨-, hne⟩ := hwin x1 y1 x2 y2
    exact absurd rfl hne
  | slpin => cases h; exact powerCommand_kept _ _ _ _ hcs
  | slpout => cases h; exact powerCommand_kept _ _ _ _ hcs
  | hwreset =>
    cases h
    obtain ⟨-, hk⟩ := hwresetEnd_kept s
    exact hk

/-- Settles O42: a rejected request by `raise_kept`; of the accepted ones INIT, WINDOW and FLUSH by the lemma of each,
the others by `exec_controlKept`. -/
theorem transientRegistersStayWithTheirRequests : Obligations.TransientRegistersStayWithTheirRequests := by
  intro i s t hcs h
  obtain ⟨ha, -⟩ | ⟨c, -, rfl⟩ := exec_next_cases h
  · cases i with
    | init =>
      obtain ⟨hwin, hpix⟩ := exec_init_kept hcs h
      exact ⟨fun hi => absurd rfl hi, fun _ => hwin, fun _ => hpix, nofun⟩
    | window x1 y1 x2 y2 =>
      obtain ⟨hseq, hpix⟩ := exec_window_kept hcs ha h
      refine ⟨fun _ => hseq, fun hw => absurd rfl (hw x1 y1 x2 y2).1, fun _ => hpix, ?_⟩
      simp [ha]
    | flush x1 y1 x2 y2 =>
      refine ⟨fun _ => exec_flush_kept hcs ha h, fun hw => absurd rfl (hw x1 y1 x2 y2).2,
        fun hw => absurd rfl (hw x1 y1 x2 y2), ?_⟩
      simp [ha]
    | hwreset =>
      cases h
      obtain ⟨hser, hseq, hwin, hpix⟩ := hwresetEnd_kept s
      exact ⟨fun _ => hseq, fun _ => hwin, fun _ => hpix, fun _ => ⟨hser, hseq, hwin, hpix⟩⟩
    | _ =>
      obtain ⟨hseq, hwin, hpix⟩ := exec_controlKept hcs ha h nofun fun _ _ _ _ => ⟨nofun, nofun⟩
      refine ⟨fun _ => hseq, fun _ => hwin, fun _ => hpix, ?_⟩
      simp [ha]
  · obtain ⟨hser, hseq, hwin, hpix⟩ := raise_kept s c
    exact ⟨fun _ => hseq, fun _ => hwin, fun _ => hpix, fun _ => ⟨hser, hseq, hwin, hpix⟩⟩

end Sys2Proof.Machine
end

section
/-! PROOFS. The ghost state never shows (spec/10_state.md R27 to R29): states that differ in it alone are led by every
request to states that differ in it alone. -/

namespace Sys2Proof.Machine

/-- The two states differ in the ghost state alone. -/
def SameButGhost (s u : State) : Prop := ∃ g : Aside, g.pixbuf = s.pixbuf ∧ u = s.aside g

theorem SameButGhost.symm {s u : State} (h : SameButGhost s u) : SameButGhost u s := by
  obtain ⟨g, hpix, rfl⟩ := h
  refine ⟨Aside.attach s.pixbuf s, hpix.symm, rfl⟩

theorem SameButGhost.trans {s u v : State} (h : SameButGhost s u) (k : SameButGhost u v) : SameButGhost s v := by
  obtain ⟨g, hpix, rfl⟩ := h
  obtain ⟨g', hpix', rfl⟩ := k
  exact ⟨g', hpix'.trans hpix, rfl⟩

theorem SameButGhost.eq {s u : State} (h : SameButGhost s u) :
    u = { s with phase := u.phase, viol := u.viol, violReasons := u.violReasons, rstdone := u.rstdone } := by
  obtain ⟨g, hpix, rfl⟩ := h
  simp only [State.aside, hpix]

/-! ## Writes of the ghost state, and operations that do not read it -/

/-- `s` with other ghost state. -/
def State.withGhost (p : Phase) (v : Bool) (rs : List Violation) (d : Bool) (s : State) : State :=
  { s with phase := p, viol := v, violReasons := rs, rstdone := d }

theorem sameButGhost_withGhost (s : State) (p : Phase) (v : Bool) (rs : List Violation) (d : Bool) :
    SameButGhost s (s.withGhost p v rs d) := ⟨⟨s.pixbuf, p, v, rs, d⟩, rfl, rfl⟩

theorem SameButGhost.withGhost {s u : State} (h : SameButGhost s u) (p p' : Phase) (v v' : Bool)
    (rs rs' : List Violation) (d d' : Bool) : SameButGhost (s.withGhost p v rs d) (u.withGhost p' v' rs' d') :=
  ((sameButGhost_withGhost s p v rs d).symm.trans h).trans (sameButGhost_withGhost u p' v' rs' d')

theorem SameButGhost.violateIf {s u : State} (h : SameButGhost s u) (c d : Bool) (r : Violation) :
    SameButGhost (s.violateIf c r) (u.violateIf d r) :=
  h.withGhost s.phase u.phase (s.violateIf c r).viol (u.violateIf d r).viol (s.violateIf c r).violReasons
    (u.violateIf d r).violReasons s.rstdone u.rstdone

theorem SameButGhost.setPhase {s u : State} (h : SameButGhost s u) (p q : Phase) :
    SameButGhost (setPhase p s) (setPhase q u) :=
  h.withGhost p q s.viol u.viol s.violReasons u.violReasons s.rstdone u.rstdone

/-- An operation that commutes with replacing the aside keeps the relation. -/
theorem SameButGhost.map {f : State → State} (hf : ∀ g s, f (s.aside g) = (f s).aside g) {s u : State}
    (h : SameButGhost s u) : SameButGhost (f s) (f u) := by
  obtain ⟨g, hpix, rfl⟩ := h
  have hself : f s = (f s).aside (Aside.attach s.pixbuf s) := hf (Aside.attach s.pixbuf s) s
  have hkept : (f s).pixbuf = s.pixbuf := by rw [hself]; rfl
  exact ⟨g, hpix.trans hkept.symm, hf g s⟩

theorem SameButGhost.desc {s u : State} (h : SameButGhost s u) : u.desc = s.desc := by
  obtain ⟨g, -, rfl⟩ := h
  rfl

/-- Retiring the serializer and responding, with which most requests end. -/
theorem SameButGhost.finish {s u : State} (h : SameButGhost s u) :
    SameButGhost s.retireSerializer.respondOk u.retireSerializer.respondOk :=
  h.map (f := fun s => s.retireSerializer.respondOk) fun _ _ => rfl

theorem SameButGhost.setWindow {s u : State} (h : SameButGhost s u) (w : Win) :
    SameButGhost (setWindow w s) (setWindow w u) := by
  have hwin : SameButGhost { s with win := w } { u with win := w } :=
    h.map (f := fun s => { s with win := w }) fun _ _ => rfl
  have hpanel : SameButGhost (latchPanel (latchWindow w s)) (latchPanel (latchWindow w u)) :=
    (hwin.violateIf _ _ .windowRange).map (f := latchPanel) fun _ _ => rfl
  exact hpanel.map aside_sendWindow

/-! ## The loops -/

theorem SameButGhost.initLoop {fuel : Nat} {s u t : State} (h : SameButGhost s u) (ht : initLoop fuel s = some t) :
    ∃ t', initLoop fuel u = some t' ∧ SameButGhost t t' := by
  obtain ⟨g, hpix, rfl⟩ := h
  obtain ⟨-, -, -, hkept, -⟩ := (Runs.initLoop ht).fields
  exact ⟨t.aside g, by rw [aside_initLoop, ht]; rfl, g, hpix.trans hkept.symm, rfl⟩

theorem SameButGhost.streamLoop {n k : Nat} {s u t : State} (h : SameButGhost s u) (ht : streamLoop n k s = some t) :
    ∃ t', streamLoop n k u = some t' ∧ SameButGhost t t' := by
  obtain ⟨g, hpix, rfl⟩ := h
  obtain ⟨-, -, -, hkept, -⟩ := (Runs.streamLoop ht).fields
  refine ⟨t.aside g, ?_, g, hpix.trans hkept.symm, rfl⟩
  rw [aside_streamLoop g n k s fun i _ => congrArg (Memory.read · (k + i)) hpix, ht]
  rfl

/-! ## The requests -/

theorem aside_resetPulse (g : Aside) (s : State) : resetPulse (s.aside g) = (resetPulse s).aside g := by
  by_cases hline : s.desc.hasReset = true
  · have hline' : (s.aside g).desc.hasReset = true := hline
    rw [resetPulse, if_pos hline', resetPulse, if_pos hline]
    rfl
  · rw [resetPulse_of_not_hasReset hline, resetPulse_of_not_hasReset (s := s.aside g) hline]

theorem SameButGhost.powerCommand {s u : State} (h : SameButGhost s u) (c d : Bool) (r : Violation) (b : Byte)
    (p q : Phase) : SameButGhost (powerCommand c r b p s) (powerCommand d r b q u) :=
  (((h.violateIf c d r).map fun g s => aside_cmd g s b).setPhase p q).finish

theorem SameButGhost.hwresetEnd {s u : State} (h : SameButGhost s u) : SameButGhost (hwresetEnd s) (hwresetEnd u) := by
  have hpulse := (h.violateIf (s.phase != .uninitialized) (u.phase != .uninitialized) .hwresetAfterInit).map
    aside_resetPulse
  unfold Machine.hwresetEnd
  generalize resetPulse (s.violateIf (s.phase != .uninitialized) .hwresetAfterInit) = v at hpulse ⊢
  generalize resetPulse (u.violateIf (u.phase != .uninitialized) .hwresetAfterInit) = w at hpulse ⊢
  exact (hpulse.withGhost .uninitialized .uninitialized v.viol w.viol v.violReasons w.violReasons true true).map
    (f := State.respondOk) fun _ _ => rfl

theorem SameButGhost.initStart {s u : State} (h : SameButGhost s u) : SameButGhost (initStart s) (initStart u) :=
  ((h.violateIf _ _ .initRepeated).violateIf _ _ .initWithoutReset).map (f := fun s => { s with idx := 0 })
    fun _ _ => rfl

theorem SameButGhost.initEnd {s u : State} (h : SameButGhost s u) : SameButGhost (initEnd s) (initEnd u) :=
  (h.setPhase .awake .awake).map (f := fun s => s.retireSerializer.retireSequencer.respondOk) fun _ _ => rfl

theorem SameButGhost.flushStart {s u : State} (h : SameButGhost s u) (x1 y1 x2 y2 : Half) :
    SameButGhost (flushStart x1 y1 x2 y2 s) (flushStart x1 y1 x2 y2 u) :=
  ((h.violateIf _ _ .flushNotAwake).setWindow _).map
    (f := fun s => loadPixcnt (pixelBytes x1 y1 x2 y2) s.dataMode) fun _ _ => rfl

/-- An accepted INIT is its loop (the converse of `exec_init_of_loop`). -/
theorem initLoop_of_exec_init {s t : State} (h : exec .init s = .next t) :
    ∃ u, Machine.initLoop s.desc.initTable.length (Machine.initStart s) = some u ∧ t = Machine.initEnd u := by
  have hwf := wf_of_exec_init h
  obtain ⟨rows, hrows, -⟩ := rowOk_of_wf hwf
  obtain ⟨u, hloop⟩ := initLoop_some (s := Machine.initStart s) hrows (beforeEnd_length hrows)
  exact ⟨u, hloop, Host.Outcome.next.inj (h.symm.trans (exec_init_of_loop hwf hloop))⟩

/-- An accepted request keeps the relation: what it does to the ghost state stays there. -/
theorem SameButGhost.exec_accepted {i : Instr} {s u t : State} (h : SameButGhost s u) (ha : argumentError i = none)
    (ht : exec i s = .next t) : ∃ t', exec i u = .next t' ∧ SameButGhost t t' := by
  cases i with
  | sendbits v n =>
    have hl := bitCountLegal_of_argumentError ha
    obtain rfl : t = _ := Host.Outcome.next.inj (ht.symm.trans (exec_sendbits_of_legal hl s))
    exact ⟨_, exec_sendbits_of_legal hl u, (h.map fun g s => aside_sendBits g s v n.toNat).finish⟩
  | sendbyte v =>
    cases ht
    exact ⟨_, rfl, (h.map fun g s => aside_sendByte g s v).finish⟩
  | init =>
    have hwf := wf_of_exec_init ht
    obtain ⟨w, hloop, rfl⟩ := initLoop_of_exec_init ht
    obtain ⟨w', hloop', hw⟩ := h.initStart.initLoop hloop
    rw [← h.desc] at hwf hloop'
    exact ⟨_, exec_init_of_loop hwf hloop', hw.initEnd⟩
  | orient a =>
    have hl := orientLegal_of_argumentError ha
    obtain rfl : t = _ := Host.Outcome.next.inj (ht.symm.trans (exec_orient_of_legal hl s))
    have hstart : SameButGhost (orientStart a s) (orientStart a u) :=
      (h.violateIf _ _ .orientNotAwake).map (f := setOrient (a.setWidth 2)) fun _ _ => rfl
    exact ⟨_, exec_orient_of_legal hl u, (hstart.map fun g s => aside_sendMadctl g (a.setWidth 2) s).finish⟩
  | window x1 y1 x2 y2 =>
    have ho := windowOrdered_of_argumentError ha
    obtain rfl : t = _ := Host.Outcome.next.inj (ht.symm.trans (exec_window_of_ordered ho s))
    exact ⟨_, exec_window_of_ordered ho u, ((h.violateIf _ _ .windowNotAwake).setWindow _).map
      (f := fun s => s.retireSerializer.retireWindow.respondOk) fun _ _ => rfl⟩
  | flush x1 y1 x2 y2 =>
    have ho := windowOrdered_of_argumentError ha
    obtain ⟨w, hstream, rfl⟩ := (execFlush_eq_next_iff ho).1 ht
    obtain ⟨w', hstream', hw⟩ := (h.flushStart x1 y1 x2 y2).streamLoop hstream
    exact ⟨_, (execFlush_eq_next_iff ho).2 ⟨w', hstream', rfl⟩, hw.map (f := flushEnd) fun _ _ => rfl⟩
  | slpin =>
    cases ht
    refine ⟨_, exec_slpin u, ?_⟩
    rw [h.desc]
    exact h.powerCommand _ _ _ _ _ _
  | slpout =>
    cases ht
    refine ⟨_, exec_slpout u, ?_⟩
    rw [h.desc]
    exact h.powerCommand _ _ _ _ _ _
  | hwreset =>
    cases ht
    exact ⟨_, exec_hwreset u, h.hwresetEnd⟩

/-- Settles O49: the state with other ghost values is related to `s`, and a request, accepted
(`SameButGhost.exec_accepted`) or rejected, keeps the relation. -/
theorem ghostStateNeverShows : Obligations.GhostStateNeverShows := by
  intro i s t p v rs d ht
  have h := sameButGhost_withGhost s p v rs d
  have hexec : ∃ u, exec i (s.withGhost p v rs d) = .next u ∧ SameButGhost t u := by
    obtain ⟨ha, -⟩ | ⟨c, ha, rfl⟩ := exec_next_cases ht
    · exact h.exec_accepted ha ht
    · exact ⟨_, exec_rejected ha _, h.map (f := State.raise c) fun _ _ => rfl⟩
  obtain ⟨u, hu, hsame⟩ := hexec
  exact ⟨u, hu, hsame.eq⟩

end Sys2Proof.Machine
end

section
/-! PROOFS. The frames of a request do not depend on the levels left on the lines (spec/40_bus_transport.md R138): they
are a function of the request and the state that reads `DC` for SENDBITS and SENDBYTE alone, never `CLK` or `MOSI`. -/

namespace Sys2Proof.Machine

/-! ## The frames each accepted request sends -/

/-- The events of HWRESET from any level of the reset line (R210, R211). -/
def pulseFrom (d : Desc) (ls : Lines) : List Event :=
  if d.hasReset then
    ls.driveEvents .rst false ++ (.delay d.resetLowMs ::
      ((ls.set .rst false).driveEvents .rst true ++ [.delay d.resetHighMs]))
  else []

/-- The first `n` bytes of the attached buffer. -/
def bufferBytes (s : State) (n : Nat) : List Byte := (List.range n).map fun k => (Memory.read s.pixbuf k).getD 0

/-- The frames an accepted request sends from `CS = 1` (R105). -/
def framesSent (i : Instr) (s : State) : List FrameEvent :=
  match i with
  | .sendbits v n => [frameOf s.lines.dc v n.toNat]
  | .sendbyte v => [frameOf s.lines.dc (zext16 v) 8]
  | .init => ((InitRow.beforeEnd s.desc.initTable).getD []).flatMap (rowFrames s.desc s.orient.toNat)
  | .orient a => orientFrames s.desc a
  | .window x1 y1 x2 y2 => requestFrames s x1 y1 x2 y2
  | .flush x1 y1 x2 y2 => requestFrames s x1 y1 x2 y2 ++ (bufferBytes s (pixelBytes x1 y1 x2 y2)).map .dataByte
  | .slpin => [.cmdByte s.desc.opSlpin]
  | .slpout => [.cmdByte s.desc.opSlpout]
  | .hwreset => framesFrom s.lines (pulseFrom s.desc s.lines)

theorem bufferBytes_eq {s : State} {bytes : List Byte} (h : s.pixbuf.holds bytes) :
    bufferBytes s bytes.length = bytes := by
  refine List.ext_getElem (by simp [bufferBytes]) fun k hk hk' => ?_
  simp [bufferBytes, h k hk', List.getElem?_eq_getElem hk']

theorem pulseFrom_of_hasReset {d : Desc} (h : d.hasReset = true) (ls : Lines) :
    pulseFrom d ls = ls.driveEvents .rst false ++ (.delay d.resetLowMs ::
      ((ls.set .rst false).driveEvents .rst true ++ [.delay d.resetHighMs])) := if_pos h

theorem pulseFrom_of_not_hasReset {d : Desc} (h : ¬ d.hasReset = true) (ls : Lines) : pulseFrom d ls = [] := if_neg h

theorem resetPulse_events (s : State) :
    (resetPulse s).trace = s.trace ++ pulseFrom s.desc s.lines ∧
      s.lines.replay (pulseFrom s.desc s.lines) = (resetPulse s).lines := by
  by_cases hline : s.desc.hasReset = true
  · rw [pulseFrom_of_hasReset hline, resetPulse, if_pos hline]
    constructor
    · simp
    · simp [Lines.replay_append, Lines.replay_driveEvents, Lines.replay]
  · rw [pulseFrom_of_not_hasReset hline, resetPulse_of_not_hasReset hline, List.append_nil]
    exact ⟨rfl, rfl⟩

theorem hwresetEnd_appends (s : State) :
    AppendsFrames s (hwresetEnd s) (framesFrom s.lines (pulseFrom s.desc s.lines)) := by
  obtain ⟨htrace, hlines⟩ := resetPulse_events (s.violateIf (s.phase != .uninitialized) .hwresetAfterInit)
  exact ⟨_, htrace, rfl, hlines⟩

/-- What an accepted request appends reads as `framesSent`. -/
theorem exec_appends {i : Instr} {s t : State} (hcs : s.lines.cs = true) (ha : argumentError i = none)
    (h : exec i s = .next t) : AppendsFrames s t (framesSent i s) := by
  cases i with
  | sendbits v n =>
    have hl := bitCountLegal_of_argumentError ha
    obtain rfl : t = _ := Host.Outcome.next.inj (h.symm.trans (exec_sendbits_of_legal hl s))
    obtain ⟨hn, hm⟩ := bitCount_bounds hl
    exact (sendBits_sentOneFrame v hn hm hcs).frames
  | sendbyte v =>
    cases h
    exact (sendBits_sentOneFrame (zext16 v) (n := 8) (by decide) (by decide) hcs).frames
  | init =>
    obtain ⟨rows, hrows, -⟩ := rowOk_of_wf (wf_of_exec_init h)
    obtain ⟨hwave, -⟩ := init_waves h hcs hrows
    rw [framesSent, hrows]
    exact hwave.appends
  | orient a =>
    obtain ⟨hframes, -⟩ := exec_orient_frames (orientLegal_le (orientLegal_of_argumentError ha)) hcs h
    exact hframes
  | window x1 y1 x2 y2 =>
    obtain ⟨hx, hy⟩ := windowOrdered_le (windowOrdered_of_argumentError ha)
    obtain ⟨t', hexec, -, -, hframes⟩ := exec_window_of_le hx hy s
    obtain rfl : t = t' := Host.Outcome.next.inj (h.symm.trans hexec)
    exact hframes hcs
  | flush x1 y1 x2 y2 =>
    obtain ⟨bytes, hlen, hholds, hwave, -⟩ := flush_waves h (windowOrdered_of_argumentError ha) hcs
    rw [framesSent, ← hlen, bufferBytes_eq hholds]
    exact hwave.appends
  | slpin =>
    cases h
    obtain ⟨hframes, -⟩ :=
      powerCommand_sends (s.phase != .awake) .slpinNotAwake s.desc.opSlpin s.phase.afterSlpin hcs
    exact hframes
  | slpout =>
    cases h
    obtain ⟨hframes, -⟩ :=
      powerCommand_sends (s.phase != .asleep) .slpoutNotAsleep s.desc.opSlpout s.phase.afterSlpout hcs
    exact hframes
  | hwreset => cases h; exact hwresetEnd_appends s

/-! ## What they depend on -/

/-- A frame opens and closes at chip-select and reads the data line at the clock: other events read alike from any
levels. -/
theorem Scan.frames_of_rst_delay {es : List Event} (c c' : Scan)
    (h : ∀ e ∈ es, (∃ v, e = .line .rst v) ∨ ∃ ms, e = .delay ms) : c.frames es = c'.frames es := by
  induction es generalizing c c' with
  | nil => rfl
  | cons e es ih =>
    have hrest := ih (c.next e) (c'.next e) fun e' h' => h e' (List.mem_cons_of_mem e h')
    obtain ⟨v, rfl⟩ | ⟨ms, rfl⟩ := h e List.mem_cons_self
    · exact congrArg (FrameEvent.rst v :: ·) hrest
    · exact congrArg (FrameEvent.delay ms :: ·) hrest

theorem pulseFrom_rst_delay {d : Desc} {ls : Lines} {e : Event} (h : e ∈ pulseFrom d ls) :
    (∃ v, e = .line .rst v) ∨ ∃ ms, e = .delay ms := by
  unfold pulseFrom at h
  split at h
  · simp only [List.mem_append, List.mem_cons, List.not_mem_nil, or_false] at h
    obtain h | rfl | h | rfl := h
    · exact .inl ⟨_, mem_driveEvents h⟩
    · exact .inr ⟨_, rfl⟩
    · exact .inl ⟨_, mem_driveEvents h⟩
    · exact .inr ⟨_, rfl⟩
  · exact nomatch h

/-- `s` with other levels on `CLK`, `MOSI` and `DC`. -/
def State.withLevels (clk mosi dc : Level) (s : State) : State :=
  { s with lines := { s.lines with clk := clk, mosi := mosi, dc := dc } }

theorem framesSent_withLevels (i : Instr) (clk mosi dc : Level) (s : State)
    (hdc : ((∃ a b, i = .sendbits a b) ∨ ∃ v, i = .sendbyte v) → dc = s.lines.dc) :
    framesSent i (s.withLevels clk mosi dc) = framesSent i s := by
  cases i with
  | sendbits v n => rw [hdc (.inl ⟨v, n, rfl⟩)]; rfl
  | sendbyte v => rw [hdc (.inr ⟨v, rfl⟩)]; rfl
  | hwreset => exact Scan.frames_of_rst_delay _ _ fun e he => pulseFrom_rst_delay he
  | _ => rfl

/-- Settles O50: an accepted request sends the same frames from either levels (`exec_appends`,
`framesSent_withLevels`), a rejected one none. -/
theorem framesIgnoreLeftoverLevels : Obligations.FramesIgnoreLeftoverLevels := by
  intro i s t u clk mosi dc hcs hdc ht hu
  obtain ⟨ha, -⟩ | ⟨c, ha, rfl⟩ := exec_next_cases ht
  · have hframes := exec_appends (s := s.withLevels clk mosi dc) hcs ha hu
    rw [framesSent_withLevels i clk mosi dc s hdc] at hframes
    exact ⟨_, exec_appends hcs ha ht, hframes⟩
  · obtain rfl := exec_rejected_eq hu ha
    exact ⟨[], (Waves.refl s).appends, (Waves.refl (s.withLevels clk mosi dc)).appends⟩

end Sys2Proof.Machine
end
